-- ==== Sys2Proof/Word.lean ====
section
/-! DEFINITION. The plain data of the codec: bytes, levels, pulse segments and pulse pairs.
`spec/00_scope.md` section 5 (notation) and `spec/30_encoding.md` R50, R51. -/

namespace Sys2Proof

/-- A byte of the byte stream: 0..255 by its type (R59 item 4). -/
abbrev Byte := BitVec 8

/-- A level is one bit; `true` is high (1), `false` is low (0) (spec/00_scope.md section 5). -/
abbrev Level := Bool

/-- R50: one level held for `duration` ticks.
The width `DUR_W` of `duration` is a parameter of the machine (R5), so the field is a natural number and
`DurationLegal` says which values are representable.
No binary layout is given for a segment (D13); it is a record of two fields. -/
structure Segment where
  duration : Nat
  level    : Level
deriving DecidableEq, Repr, Inhabited

/-- R51: two segments, `A` first in time, then `B`: the unit in which the encoder produces its output. -/
structure Pair where
  A : Segment
  B : Segment
deriving DecidableEq, Repr, Inhabited

end Sys2Proof
end

