-- ==== Sys2Proof/Config.lean ====
section
/-! DEFINITION. What an implementation fixes (the named parameters of R5 and D19) and the two free values:
what the external transmit capability reports, and what a WRITE of nothing that it never sees returns.
The parameters are plain data that `State` carries and no operation writes, so that a statement about every
state is a statement about every choice of them (notes/assumptions/2.md, 9.md). -/

namespace Sys2Proof

/-- `READ_BATCHES` of D19, which R112 leaves open: a READ takes one batch, or goes on taking batches until it
has `max_bytes` bytes or a receive times out. -/
inductive ReadBatches where
  | one
  | several
deriving DecidableEq, Repr

/-- `READ_EXCESS` of D19: the three things R112 names for bytes decoded beyond `max_bytes`. -/
inductive ReadExcess where
  /-- the bytes beyond `max_bytes` are dropped -/
  | drop
  /-- they are kept for the next READ -/
  | keep
  /-- decoding stops when `max_bytes` bytes are there, and the segments left over stay unread -/
  | stopEarly
deriving DecidableEq, Repr

/-- The parameters of the machine.
`durW` is `DUR_W` of R5; the next three are the open points of D19 that a single operation can show; `stream` is the
model's own. (`N_CH` of R5 is the length of the list in `Machine/Channels.lean`.) -/
structure Params where
  /-- `DUR_W`: the width in bits of a segment's `duration` (R5, D1); at least 1. -/
  durW            : Nat
  readBatches     : ReadBatches
  readExcess      : ReadExcess
  /-- `WRITE_EMPTY` of D19: whether a WRITE of no bytes reaches the transmit capability. -/
  writeEmptySends : Bool
  /-- the MODEL'S OWN (notes/assumptions/19.md): which stream of free values this channel draws from. Channels share
  nothing (R133), so two channels of one machine have different streams. -/
  stream          : Nat
deriving DecidableEq, Repr

/-- What the pulse-transmit capability answers to a hand-off (R111): it completed, or it failed.
What the line carried up to a failure is not stated, so a failure names it freely. -/
inductive TxReport where
  | completed
  | failed (driven : List Segment)
deriving DecidableEq, Repr, Inhabited

/-- FREE VALUE (notes/assumptions/10.md): the report of the transmit capability for the n-th hand-off of a channel,
where the environment in `State` does not say it: `Config.txReport stream n`.
It has no body, so nothing can be proved about which report comes. That one stream and one number always give the same
report is the model's choice (DESIGN CHOICE, notes/assumptions/19.md). -/
opaque Config.txReport : Nat → Nat → TxReport

/-- FREE VALUE (notes/assumptions/18.md): whether the n-th empty WRITE of a channel that does not reach the
transmit capability returns success, which the spec does not state (N12): `Config.emptyWriteSucceeds stream n`.
It has no body. The stream is as for `Config.txReport` (DESIGN CHOICE, notes/assumptions/19.md). -/
opaque Config.emptyWriteSucceeds : Nat → Nat → Bool

end Sys2Proof
end

