-- ==== Sys2Proof/Syntax.lean ====
section
/-! DEFINITION. The operations of the block: one constructor per row of spec/opcode_table.json, in the order
of the operation map of R58. -/

namespace Sys2Proof

/-- R58: the eight operations, each with the operands its rule gives it.
`BP` and `CAP` are arguments of the operations and not registers (R15, R16, R113). -/
inductive Instr where
  /-- ENC.BYTE (R70): byte `b`, bit period `bp`. -/
  | encByte (b : Byte) (bp : Nat)
  /-- ENC.BUF (R71): `TXBYTES`, bit period, capacity limit in segments. -/
  | encBuf (bytes : List Byte) (bp cap : Nat)
  /-- QUANT (R80): duration `d`, bit period. -/
  | quant (d bp : Nat)
  /-- DEC.SEG (R90): one captured segment at line level, bit period. -/
  | decSeg (seg : Segment) (bp : Nat)
  /-- DEC.BATCH (R100): a flat batch of captured segments in arrival order (R51, D18), bit period. -/
  | decBatch (segs : List Segment) (bp : Nat)
  /-- DEC.INIT (R110): no operands. -/
  | decInit
  /-- WRITE (R111): bytes, with the channel's bit period and capacity limit. -/
  | write (bytes : List Byte) (bp cap : Nat)
  /-- READ (R112): `max_bytes`, `timeout`, with the channel's bit period. -/
  | read (maxBytes timeout bp : Nat)
deriving DecidableEq, Repr

end Sys2Proof
end

