-- ==== Sys2Proof/WellFormed.lean ====
section
/-! DEFINITION. Which operands are legal: R5, R59 items 1 and 2, and the operand lines of R70, R71, R80, R90,
R100. -/

namespace Sys2Proof

/-- R5: a legal bit period is positive and representable in a `duration` field. -/
abbrev BpLegal (p : Params) (bp : Nat) : Prop := 0 < bp ∧ bp < 2 ^ p.durW

/-- R50: a duration is representable in `DUR_W` bits. -/
abbrev DurationLegal (p : Params) (d : Nat) : Prop := d < 2 ^ p.durW

/-- R50, R59 item 2: a segment whose duration is representable. -/
abbrev SegmentLegal (p : Params) (seg : Segment) : Prop := DurationLegal p seg.duration

/-- An operation all of whose operands are legal. `CAP`, `max_bytes` and `timeout` are any natural number
(R16, R112). -/
def WellFormed (p : Params) : Instr → Bool
  | .encByte _ bp     => decide (BpLegal p bp)
  | .encBuf _ bp _    => decide (BpLegal p bp)
  | .quant d bp       => decide (BpLegal p bp) && decide (DurationLegal p d)
  | .decSeg seg bp    => decide (BpLegal p bp) && decide (SegmentLegal p seg)
  | .decBatch segs bp => decide (BpLegal p bp) && segs.all fun seg => decide (SegmentLegal p seg)
  | .decInit          => true
  | .write _ bp _     => decide (BpLegal p bp)
  | .read _ _ bp      => decide (BpLegal p bp)

end Sys2Proof
end

