-- ==== Sys2Proof/Decode.lean ====
section
/-! DEFINITION. Requests as bytes: the decoder, total on any bytes and rejecting by name, and the encoder.

The hardware has no command word (R58, D2, D22, N16): an operation is selected by which request is made.
The tag (0..7, opcode_table.json, `match` and `mask` 0x7) is the spec's own ordinal; the bytes of the operands
are the MODEL'S OWN form (DESIGN CHOICE, notes/assumptions/1.md):

* byte 0: the tag in bits 2..0, bits 7..3 zero;
* then the operands, in this order:
  ENC.BYTE bp b; ENC.BUF bp cap bytes; QUANT bp d; DEC.SEG bp segment; DEC.BATCH bp segments; DEC.INIT none;
  WRITE bp cap bytes; READ max_bytes timeout bp;
* a number: base 128, least significant digit first, bit 7 set on every byte but the last, no superfluous
  last zero digit;
* `bp`: a number, in which 0 and 1 change places, so that zero bytes name the smallest legal bit period, 1;
* a segment: its duration, then one level byte, 0 or 1;
* a sequence: byte 1 before each element, byte 0 after the last.

Every natural number and every sequence can be written, so every operation has exactly one form in bytes. -/

namespace Sys2Proof

/-- Why bytes are no request. -/
inductive DecodeError where
  /-- the bytes end inside a request -/
  | truncated
  /-- bits 7..3 of the first byte are not zero -/
  | reservedTag
  /-- a number with a superfluous zero as its last digit -/
  | overlong
  /-- a sequence mark that is neither 0 nor 1 -/
  | badMark
  /-- a level byte that is neither 0 nor 1 -/
  | badLevel
deriving DecidableEq, Repr

/-- A reader takes an item off the front of the bytes, and answers it with the bytes that are left. -/
abbrev Reader (α : Type) := List Byte → Except DecodeError (α × List Byte)

/-- Read one item, then go on with what it was. -/
def Reader.andThen {α β : Type} (get : Reader α) (next : α → Reader β) : Reader β := fun bs =>
  match get bs with
  | .error e => .error e
  | .ok (a, rest) => next a rest

/-- Read one item and answer a value made from it. -/
def Reader.map {α β : Type} (f : α → β) (get : Reader α) : Reader β := fun bs =>
  match get bs with
  | .error e => .error e
  | .ok (a, rest) => .ok (f a, rest)

/-- One byte, as it is. -/
def getByte : Reader Byte
  | [] => .error .truncated
  | b :: rest => .ok (b, rest)

/-- A number in base 128. -/
def getNat : Reader Nat
  | [] => .error .truncated
  | b :: rest =>
    if b.toNat < 128 then .ok (b.toNat, rest)
    else
      match getNat rest with
      | .error e => .error e
      | .ok (0, _) => .error .overlong
      | .ok (n + 1, rest') => .ok (b.toNat - 128 + 128 * (n + 1), rest')

/-- 0 and 1 change places: the code of the bit period. -/
def swapBp : Nat → Nat
  | 0 => 1
  | 1 => 0
  | n + 2 => n + 2

/-- A bit period. -/
def getBp : Reader Nat := Reader.map swapBp getNat

/-- A level byte. -/
def getLevel : Reader Level
  | [] => .error .truncated
  | b :: rest => if b = 0 then .ok (false, rest) else if b = 1 then .ok (true, rest) else .error .badLevel

/-- A segment: duration, then level. -/
def getSegment : Reader Segment :=
  Reader.andThen getNat fun d => Reader.map (fun l => ⟨d, l⟩) getLevel

/-- The elements of a sequence, up to its end mark; `fuel` bounds how many marks are read. -/
def getMany {α : Type} (get : Reader α) : Nat → Reader (List α)
  | _, [] => .error .truncated
  | 0, _ :: _ => .error .truncated
  | fuel + 1, m :: rest =>
    if m = 0 then .ok ([], rest)
    else if m = 1 then
      (Reader.andThen get fun a => Reader.map (fun as => a :: as) (getMany get fuel)) rest
    else .error .badMark

/-- A sequence: every mark takes a byte, so the bytes there are bound the marks. -/
def getList {α : Type} (get : Reader α) : Reader (List α) := fun bs => getMany get bs.length bs

/-- The operands of the operation with this tag (the operation map of R58). -/
def getOperands : Nat → Reader Instr
  | 0 => Reader.andThen getBp fun bp => Reader.map (fun b => .encByte b bp) getByte
  | 1 => Reader.andThen getBp fun bp => Reader.andThen getNat fun cap =>
      Reader.map (fun bytes => .encBuf bytes bp cap) (getList getByte)
  | 2 => Reader.andThen getBp fun bp => Reader.map (fun d => .quant d bp) getNat
  | 3 => Reader.andThen getBp fun bp => Reader.map (fun seg => .decSeg seg bp) getSegment
  | 4 => Reader.andThen getBp fun bp =>
      Reader.map (fun segs => .decBatch segs bp) (getList getSegment)
  | 5 => fun bs => .ok (.decInit, bs)
  | 6 => Reader.andThen getBp fun bp => Reader.andThen getNat fun cap =>
      Reader.map (fun bytes => .write bytes bp cap) (getList getByte)
  | 7 => Reader.andThen getNat fun maxBytes => Reader.andThen getNat fun timeout =>
      Reader.map (fun bp => .read maxBytes timeout bp) getBp
  | _ => fun _ => .error .reservedTag

/-- The decoder: one request off the front of the bytes. -/
def decode : Reader Instr
  | [] => .error .truncated
  | t :: rest => getOperands t.toNat rest

/-- One byte, as it is. -/
def putByte (b : Byte) : List Byte := [b]

/-- The digits of a number; `fuel` bounds how many there are. -/
def putNatFuel : Nat → Nat → List Byte
  | 0, n => [BitVec.ofNat 8 n]
  | fuel + 1, n =>
    if n < 128 then [BitVec.ofNat 8 n] else BitVec.ofNat 8 (128 + n % 128) :: putNatFuel fuel (n / 128)

/-- A number in base 128: it has no more digits than its value, or one. -/
def putNat (n : Nat) : List Byte := putNatFuel n n

/-- A bit period. -/
def putBp (bp : Nat) : List Byte := putNat (swapBp bp)

/-- A level byte. -/
def putLevel (l : Level) : List Byte := [if l then 1 else 0]

/-- A segment. -/
def putSegment (seg : Segment) : List Byte := putNat seg.duration ++ putLevel seg.level

/-- A sequence. -/
def putList {α : Type} (put : α → List Byte) : List α → List Byte
  | [] => [0]
  | a :: as => 1 :: (put a ++ putList put as)

/-- The tag of an operation in the operation map (R58, opcode_table.json). -/
def Instr.tag : Instr → Byte
  | .encByte _ _  => 0
  | .encBuf _ _ _ => 1
  | .quant _ _    => 2
  | .decSeg _ _   => 3
  | .decBatch _ _ => 4
  | .decInit      => 5
  | .write _ _ _  => 6
  | .read _ _ _   => 7

/-- The operands of an operation in bytes. -/
def putOperands : Instr → List Byte
  | .encByte b bp               => putBp bp ++ putByte b
  | .encBuf bytes bp cap        => putBp bp ++ (putNat cap ++ putList putByte bytes)
  | .quant d bp                 => putBp bp ++ putNat d
  | .decSeg seg bp              => putBp bp ++ putSegment seg
  | .decBatch segs bp           => putBp bp ++ putList putSegment segs
  | .decInit                    => []
  | .write bytes bp cap         => putBp bp ++ (putNat cap ++ putList putByte bytes)
  | .read maxBytes timeout bp   => putNat maxBytes ++ (putNat timeout ++ putBp bp)

/-- The encoder: the bytes of a request. -/
def encode (i : Instr) : List Byte := i.tag :: putOperands i

/-- The first `k` bytes of a table word, the least significant first. -/
def wordBytes : Nat → Nat → List Byte
  | 0, _ => []
  | k + 1, w => BitVec.ofNat 8 w :: wordBytes k (w / 256)

/-- A table word of `nbits` bits laid out as bytes, with zero bytes above it: sixteen, more than the operands
of any operation take when they are zero. -/
def tableBytes (nbits w : Nat) : List Byte :=
  wordBytes ((nbits + 7) / 8) (w % 2 ^ nbits) ++ List.replicate 16 0

/-- The bytes of the one request that a table word stands for: what the decoder takes off the front of its
bytes, or all of them where it takes nothing. -/
def requestBytes (nbits w : Nat) : List Byte :=
  let bs := tableBytes nbits w
  match decode bs with
  | .ok (_, rest) => bs.take (bs.length - rest.length)
  | .error _ => bs

/-- The operation the decoder reads from a table word (the host's name and numbering of bits). -/
def decodeTableWord (nbits w : Nat) : Option Instr :=
  match decode (tableBytes nbits w) with
  | .ok (i, _) => some i
  | .error _ => none

end Sys2Proof
end

