-- ==== Sys2Proof/Machine/State.lean ====
section
/-! DEFINITION. The state of one logical channel and its reset value.
A model is one channel (R18, R133); `Machine/Channels.lean` puts `N_CH` of them beside each other.
INVENTORY.md, section State, lists every field with its rule. -/

namespace Sys2Proof.Machine

/-- R10: the DecoderState, the only architectural state of a channel. -/
structure DecoderState where
  /-- `BITPOS` (R11): the next frame slot to fill, 0..10; 10 is WEDGED. Width 4 (D4). -/
  bitpos : BitVec 4
  /-- `ACC` (R13): the levels recorded so far, slot `j` in bit `j`. Width 10 (D4). -/
  acc    : BitVec 10
deriving DecidableEq, Repr

/-- The two diagnostics of the decoder (R120). -/
inductive Event where
  /-- `SkippedNonStart` (R122) -/
  | skippedNonStart
  /-- `MissingStopBit` (R123) -/
  | missingStopBit
deriving DecidableEq, Repr

/-- An item of the decoder's ordered output trace (R134): a byte of `RXBYTES` or an event of `EVT`. -/
inductive Item where
  | byte (b : Byte)
  | event (e : Event)
deriving DecidableEq, Repr

/-- The result of the last encode (R71): none yet, `OK`, or `Overflow` (R121). -/
inductive EncResult where
  | none
  | ok
  | overflow
deriving DecidableEq, Repr

/-- The result of the last WRITE (R111): none yet, success, or failure. -/
inductive WriteResult where
  | none
  | success
  | failure
deriving DecidableEq, Repr

/-- One hand-off to the pulse-transmit capability (R42): the pulse pairs, and the flag that asks it to wait
for completion. -/
structure Handoff where
  pairs : List Pair
  wait  : Bool
deriving DecidableEq, Repr

/-- One logical channel: the DecoderState, the output spaces of R30, the last results, and the two external
capabilities (R42, R43) as far as their contracts go. -/
structure State where
  /-- the parameters of the machine (R5, D19); no operation writes them -/
  params      : Params
  /-- the DecoderState (R10) -/
  dec         : DecoderState
  /-- `TXSEG` (R30), as the pairs the encoder emits: the output of the last encode -/
  txPairs     : List Pair
  /-- the result of the last encode (R71, R121) -/
  encResult   : EncResult
  /-- the result of the last QUANT (R80) -/
  span        : Nat
  /-- the output of the last decode: its bytes and events in order (R134); empty when it starts (R20, R140) -/
  decOut      : List Item
  /-- the whole output trace of the channel so far: every decode's output, in issue order (R17, R134) -/
  trace       : List Item
  /-- the result of the last WRITE (R111) -/
  writeResult : WriteResult
  /-- the bytes the last READ returned (R112) -/
  readBytes   : List Byte
  /-- bytes kept for the next READ: used only where `READ_EXCESS` is `keep` (R112, D19) -/
  held        : List Byte
  /-- every hand-off to the transmit capability so far (R42, R111) -/
  handoffs    : List Handoff
  /-- what the line has carried, in line levels (R42): every hand-off after the inversion -/
  line        : List Segment
  /-- INPUT: the reports the transmit capability will give, the next one first; where it names none, the
  report is the free value `Config.txReport` -/
  txReports   : List TxReport
  /-- the MODEL'S OWN counter: how many empty WRITEs have not reached the transmit capability so far; it numbers the
  free value `Config.emptyWriteSucceeds` -/
  unsent      : Nat
  /-- INPUT: what the pulse-capture capability will deliver (R43), one entry for one blocking receive; an
  empty entry, and no entry, is a receive that times out with nothing -/
  captures    : List (List Segment)
  /-- INPUT: another caller is at work on this DecoderState right now (R39, R130 `Concurrent`) -/
  contended   : Bool
  /-- INPUT: the requests not yet executed, as bytes, in issue order (R38; the byte form is `Decode.lean`'s) -/
  requests    : List Byte
deriving DecidableEq, Repr

/-- The machine reports no fault: its three conditions are results and diagnostics, none of them stops it, and
"No exceptions propagate across the channel boundary" (R124, R126, R127).
So there is no reason to fault, and this type has no constructor. -/
inductive Fault where
deriving DecidableEq, Repr

/-- Why the model gives a request no next state. Every one of them is safe: where the model stops, nothing can
be proved about a next state. -/
inductive Refusal where
  /-- Raised by no meaning of this model; the arm of an operation without a meaning would answer it. Safe. -/
  | notModelled (mnemonic : String)
  /-- R130 `BadConfig`, raised by every operation that takes a bit period, where `BP = 0` or
  `BP >= 2^DUR_W`. Safe. -/
  | badConfig
  /-- R130 `BadSegment`, raised by DEC.SEG, DEC.BATCH and READ for a segment, and by QUANT for a duration,
  that is `>= 2^DUR_W`. Safe. -/
  | badSegment
  /-- R130 `BadState`, raised by DEC.SEG, DEC.BATCH and READ, where `BITPOS > 10` or `ACC` breaks R13. Safe. -/
  | badState
  /-- R130 `Concurrent`, raised by DEC.SEG, DEC.BATCH, DEC.INIT and READ, where another caller is at work on the
  same DecoderState. Safe. -/
  | concurrent
  /-- Raised by `step` where the bytes of the next request are not the form of any operation. Safe. -/
  | malformed (e : DecodeError)
deriving DecidableEq, Repr

/-- R20, R140: a fresh channel. `BITPOS` and `ACC` are 0 (D3), every output is empty, and the environment has
said nothing yet.
`durW := 15` is PRESUMED (G3; notes/assumptions/2.md); `readBatches`, `readExcess` and `writeEmptySends` are DESIGN
CHOICES (notes/assumptions/9.md), and so are `stream` (notes/assumptions/19.md) and the value of a result nothing has produced yet (notes/assumptions/6.md). -/
def State.reset : State where
  params      := ⟨15, .one, .drop, false, 0⟩
  dec         := ⟨0, 0⟩
  txPairs     := []
  encResult   := .none
  span        := 0
  decOut      := []
  trace       := []
  writeResult := .none
  readBytes   := []
  held        := []
  handoffs    := []
  line        := []
  txReports   := []
  unsent      := 0
  captures    := []
  contended   := false
  requests    := []

end Sys2Proof.Machine
end

