-- ==== Sys2Proof/Machine/Flags.lean ====
section
/-! DEFINITION. The three conditions the block reports, their codes, and the two projections of the output trace.
There is no flag register and no sticky status (R17). -/

namespace Sys2Proof.Machine

/-- R120: the three conditions. -/
inductive Condition where
  | overflow
  | skippedNonStart
  | missingStopBit
deriving DecidableEq, Repr

/-- R120, D8: the spec's own numbers for the conditions; 0 is left for "no condition". -/
def Condition.code : Condition → Nat
  | .overflow => 1
  | .skippedNonStart => 2
  | .missingStopBit => 3

/-- The condition that a decoder event signals (R120). -/
def Event.condition : Event → Condition
  | .skippedNonStart => .skippedNonStart
  | .missingStopBit => .missingStopBit

/-- The condition that an encode ended with, if any (R121). -/
def EncResult.condition : EncResult → Option Condition
  | .overflow => some .overflow
  | .none | .ok => .none

/-- The byte of a trace item. -/
def Item.byte? : Item → Option Byte
  | .byte b => some b
  | .event _ => none

/-- The event of a trace item. -/
def Item.event? : Item → Option Event
  | .byte _ => none
  | .event e => some e

/-- `RXBYTES` is the trace with the events removed (R134). -/
def rxBytes (items : List Item) : List Byte := items.filterMap Item.byte?

/-- `EVT` is the trace with the bytes removed (R134). -/
def events (items : List Item) : List Event := items.filterMap Item.event?

end Sys2Proof.Machine
end

