-- ==== Sys2Proof/Machine/Operands.lean ====
section
/-! DEFINITION. Operand forms: frames, polarity, pairs, and which DecoderState is legal (spec/30_encoding.md,
spec/10_state.md). -/

namespace Sys2Proof.Machine

/-- R53: the frame of a byte, `(b << 1) | 0b1000000000`: start bit 0, the data bits least significant first, stop
bit 1. -/
def frameOf (b : Byte) : BitVec 10 := (b.zeroExtend 10 <<< 1) ||| 0b1000000000#10

/-- R54: the byte of a completed frame, `(ACC >> 1) & 0xFF`. -/
def byteOf (acc : BitVec 10) : Byte := ((acc >>> 1) &&& 0xFF#10).truncate 8

/-- R52: the frame bit of slot `j`. -/
def frameBit (v : BitVec 10) (j : Nat) : Level := v.getLsbD j

/-- R42: the inversion of one segment; the duration stays. -/
def invSegment (seg : Segment) : Segment := ⟨seg.duration, !seg.level⟩

/-- R42: `inv`, the inversion the transmit hand-off makes. -/
def inv (segs : List Segment) : List Segment := segs.map invSegment

/-- R51: the segments of one pair, A then B. -/
def Pair.segments (p : Pair) : List Segment := [p.A, p.B]

/-- R51: `flat`, the segments of a sequence of pairs in order. -/
def flat (pairs : List Pair) : List Segment := pairs.flatMap Pair.segments

/-- `ones(a, b)` of R98 with `n = b - a + 1`: `n` ones from bit `a` up. -/
def ones (a n : Nat) : BitVec 10 := BitVec.ofNat 10 ((2 ^ n - 1) * 2 ^ a)

/-- R105: to record a level in slot `j` is to OR it into `ACC`. -/
def record (acc : BitVec 10) (j : Nat) (l : Level) : BitVec 10 := acc ||| (BitVec.ofBool l).zeroExtend 10 <<< j

/-- R11, R13: the DecoderStates that the rules allow: `BITPOS` at most 10; slot 0 recorded as 0; nothing recorded at
or above `BITPOS`; bit 9 clear between operations. (`ACC = 0` at `BITPOS = 0`, R13 item 3, follows.) -/
abbrev DecoderState.Legal (st : DecoderState) : Prop :=
  st.bitpos.toNat ≤ 10 ∧ st.acc.getLsbD 0 = false ∧ st.acc.getLsbD 9 = false ∧
    (st.bitpos.toNat ≤ 9 → ∀ j, j < 10 → st.bitpos.toNat ≤ j → st.acc.getLsbD j = false)

/-- R11, R96: the WEDGED state. -/
abbrev DecoderState.Wedged (st : DecoderState) : Prop := st.bitpos = 10

/-- The DecoderState of a fresh channel (R20, R110). -/
def DecoderState.fresh : DecoderState := ⟨0, 0⟩

/-- `TXSEG` as the flat sequence of R30. -/
def State.txSeg (s : State) : List Segment := flat s.txPairs

end Sys2Proof.Machine
end

