-- ==== Sys2Proof/Machine/Ops.lean ====
section
/-! DEFINITION. The shared operations: raising a diagnostic, the updates of State that the meanings are made of, the
two external capabilities, and taking the next request off the front.

The block has no trap: nothing is saved and no control goes elsewhere (R124, R126). What stands in the place of
exception entry is `raise` for the two diagnostics and `State.overflow` for the encoder's error; what stands in the
place of return is that the next segment or the next operation simply follows (R127). -/

namespace Sys2Proof.Machine

/-- What one frame slot of a segment does: the segment goes on with its next slot, or it ends here; either way with
the items the slot put out. -/
inductive SlotResult where
  | goOn (st : DecoderState) (items : List Item)
  | ended (st : DecoderState) (items : List Item)
deriving DecidableEq, Repr

/-- R124, R126: to raise a diagnostic appends it to the trace and ends the segment, its remaining slots dropped; the
DecoderState stays as it is left. -/
def raise (e : Event) (st : DecoderState) : SlotResult := .ended st [.event e]

/-- A meaning that may refuse, as an outcome of a step. -/
def answer (r : Except Refusal State) : Host.Outcome State Fault Refusal :=
  match r with
  | .ok s => .next s
  | .error e => .refused e

/-- A successful encode: `TXSEG` is its output (R70, R71). -/
def State.encoded (s : State) (pairs : List Pair) : State := { s with txPairs := pairs, encResult := .ok }

/-- R121: `Overflow`: the output is empty and the result says so; nothing else changes. -/
def State.overflow (s : State) : State := { s with txPairs := [], encResult := .overflow }

/-- The result of QUANT (R80). -/
def State.quantized (s : State) (n : Nat) : State := { s with span := n }

/-- The end of a decode: its DecoderState, its output, and its output appended to the channel's trace (R100, R134). -/
def State.decoded (s : State) (st : DecoderState) (items : List Item) : State :=
  { s with dec := st, decOut := items, trace := s.trace ++ items }

/-- A fresh DecoderState (R110). -/
def State.initDecoder (s : State) : State := { s with dec := DecoderState.fresh }

/-- The result of a WRITE (R111). -/
def State.wrote (s : State) (r : WriteResult) : State := { s with writeResult := r }

/-- An empty WRITE that does not reach the transmit capability (N12): the spec states no result, so it is a free value,
one for each such WRITE of the channel's stream (which channels draw alike is the model's choice,
notes/assumptions/19.md). -/
def State.wroteNothing (s : State) : State :=
  { s with
    unsent      := s.unsent + 1
    writeResult := if Config.emptyWriteSucceeds s.params.stream s.unsent then .success else .failure }

/-- What the line carries of a hand-off of `segs`: all of it inverted (R42), or what a failed transmission left. -/
def TxReport.onLine (r : TxReport) (segs : List Segment) : List Segment :=
  match r with
  | .completed => inv segs
  | .failed driven => driven

/-- R111: success when the capability reports completion, failure if it reports failure. -/
def TxReport.result : TxReport → WriteResult
  | .completed => .success
  | .failed _ => .failure

/-- The report of the transmit capability for the next hand-off: the environment's, or a free value of the channel's
stream (DESIGN CHOICE, notes/assumptions/10.md and 19.md: channels share nothing, R133, so two channels have two streams;
within one stream the number of the hand-off fixes the report). -/
def State.nextReport (s : State) : TxReport :=
  match s.txReports with
  | r :: _ => r
  | [] => Config.txReport s.params.stream s.handoffs.length

/-- R111, R42: `TXSEG` is handed to the transmit capability with the flag to wait for completion, and the capability
reports `r`. -/
def State.handOff (s : State) (r : TxReport) : State :=
  { s with
    handoffs    := s.handoffs ++ [⟨s.txPairs, true⟩]
    txReports   := s.txReports.tail
    line        := s.line ++ TxReport.onLine r s.txSeg
    writeResult := TxReport.result r }

/-- R43: one blocking receive: the batch delivered, or none where it times out with nothing; and what is still to
come. -/
def receive (captures : List (List Segment)) : Option (List Segment) × List (List Segment) :=
  match captures with
  | [] => (none, [])
  | [] :: rest => (none, rest)
  | batch :: rest => (some batch, rest)

/-- Segments left unread go back to the front of what is to come; no segments leave nothing. -/
def unread (segs : List Segment) (captures : List (List Segment)) : List (List Segment) :=
  match segs with
  | [] => captures
  | _ :: _ => segs :: captures

/-- The bytes kept from earlier READs that a READ may return: there are some only where `READ_EXCESS` is `keep`, and
none on a WEDGED channel (R112: after a `MissingStopBit` every later READ returns no bytes until DEC.INIT). -/
def State.kept (s : State) : List Byte :=
  if s.params.readExcess = .keep ∧ ¬ s.dec.Wedged then s.held else []

/-- What a READ of `max_bytes` that starts in `s` and decodes `bytes` gives back and keeps (R112): at most `max` bytes
are returned, and what is beyond them is kept where `READ_EXCESS` says so. A READ that starts on a WEDGED channel
decodes nothing, and what is held stays held (notes/assumptions/9.md). -/
def State.delivered (s : State) (max : Nat) (bytes : List Byte) (captures : List (List Segment)) : State :=
  let pool := s.kept ++ bytes
  { s with
    readBytes := pool.take max
    held      := if s.params.readExcess = .keep ∧ ¬ s.dec.Wedged then pool.drop max else s.held
    captures  := captures }

/-- A READ in which nothing arrived before the timeout (R112): no bytes, no output, the DecoderState untouched. -/
def State.timedOut (s : State) (captures : List (List Segment)) : State :=
  { s with decOut := [], readBytes := [], captures := captures }

/-- The requests that are left once one is taken off the front. -/
def State.consume (s : State) (rest : List Byte) : State := { s with requests := rest }

/-- What stands at the front of the requests. -/
inductive Fetched where
  /-- no request is pending -/
  | idle
  /-- an operation, and the state with its bytes taken off -/
  | operation (i : Instr) (s : State)
  /-- bytes that are no request -/
  | malformed (e : DecodeError)

/-- Take the next request off the front (R38: operations are executed one after another in issue order). -/
def fetch (s : State) : Fetched :=
  match s.requests with
  | [] => .idle
  | b :: bs =>
    match decode (b :: bs) with
    | .ok (i, rest) => .operation i (s.consume rest)
    | .error e => .malformed e

/-- Put a table word at the front of the requests. -/
def State.placeWord (s : State) (nbits w : Nat) : State := s.consume (requestBytes nbits w ++ s.requests)

end Sys2Proof.Machine
end

