-- ==== Sys2Proof/Machine/Quantizer.lean ====
section
/-! DEFINITION. The bit-period quantizer (spec/41_quantizer.md), computed in unbounded naturals (R84, R86). -/

namespace Sys2Proof.Machine

/-- R80: round half up of `d / bp`. -/
def rhu (d bp : Nat) : Nat := (2 * d + bp) / (2 * bp)

/-- QUANT (R80). -/
def execQuant (d bp : Nat) (s : State) : Host.Outcome State Fault Refusal :=
  if ¬ BpLegal s.params bp then .refused .badConfig
  else if ¬ DurationLegal s.params d then .refused .badSegment
  else .next (s.quantized (rhu d bp))

end Sys2Proof.Machine
end

