-- ==== Sys2Proof/Machine/Decoder.lean ====
section
/-! DEFINITION. The frame decoder: DEC.SEG and DEC.BATCH (spec/42_decoder.md). The step labels are those of R90. -/

namespace Sys2Proof.Machine

/-- R90 steps 3a to 3e: one slot of a segment of level `l`. -/
def slotStep (l : Level) (st : DecoderState) : SlotResult :=
  if st.bitpos = 0 ∧ l = true then                                   -- 3a, R92
    raise .skippedNonStart st
  else
    let j := st.bitpos.toNat                                         -- R106
    let pos := st.bitpos + 1                                         -- 3b, R93
    if pos = 10 ∧ l = false then                                     -- 3c, R94
      raise .missingStopBit { st with bitpos := pos }
    else
      let acc := record st.acc j l                                   -- 3d, R105
      if pos = 10 then .goOn DecoderState.fresh [.byte (byteOf acc)] -- 3e, R95
      else .goOn ⟨pos, acc⟩ []

/-- R90 step 3: `repeat span times`, until a slot ends the segment. -/
def slots (l : Level) : Nat → DecoderState → DecoderState × List Item
  | 0, st => (st, [])
  | n + 1, st =>
    match slotStep l st with
    | .ended st' items => (st', items)
    | .goOn st' items =>
      let rest := slots l n st'
      (rest.1, items ++ rest.2)

/-- R90 steps 1 and 2: the span of a segment; a high segment of span 0 fills the rest of the frame (R91). -/
def spanOf (bp : Nat) (seg : Segment) (st : DecoderState) : Nat :=
  let n := rhu seg.duration bp
  if n = 0 ∧ seg.level = true then 10 - st.bitpos.toNat else n

/-- R90: DEC.SEG on legal operands and a legal state. WEDGED, the segment has no effect (R96). -/
def segmentStep (bp : Nat) (seg : Segment) (st : DecoderState) : DecoderState × List Item :=
  if st.bitpos = 10 then (st, []) else slots seg.level (spanOf bp seg st) st

/-- DEC.SEG with the refusals of R130. -/
def decodeSegment (p : Params) (bp : Nat) (seg : Segment) (st : DecoderState) :
    Except Refusal (DecoderState × List Item) :=
  if ¬ BpLegal p bp then .error .badConfig
  else if ¬ SegmentLegal p seg then .error .badSegment
  else if ¬ st.Legal then .error .badState
  else .ok (segmentStep bp seg st)

/-- R100: DEC.SEG over the segments in arrival order; no diagnostic ends it early (R127). -/
def decodeAll (p : Params) (bp : Nat) : List Segment → DecoderState → Except Refusal (DecoderState × List Item)
  | [], st => .ok (st, [])
  | seg :: segs, st =>
    match decodeSegment p bp seg st with
    | .error r => .error r
    | .ok (st', items) =>
      match decodeAll p bp segs st' with
      | .error r => .error r
      | .ok (st'', items') => .ok (st'', items ++ items')

/-- R100: DEC.BATCH; its bit period is a precondition also of an empty batch (R130). -/
def decodeBatch (p : Params) (bp : Nat) (segs : List Segment) (st : DecoderState) :
    Except Refusal (DecoderState × List Item) :=
  if ¬ BpLegal p bp then .error .badConfig else decodeAll p bp segs st

/-- The end of a decode as an outcome. -/
def finishDecode (r : Except Refusal (DecoderState × List Item)) (s : State) :
    Host.Outcome State Fault Refusal :=
  match r with
  | .error e => .refused e
  | .ok (st, items) => .next (s.decoded st items)

/-- DEC.SEG (R90). -/
def execDecSeg (seg : Segment) (bp : Nat) (s : State) : Host.Outcome State Fault Refusal :=
  if s.contended then .refused .concurrent else finishDecode (decodeSegment s.params bp seg s.dec) s

/-- DEC.BATCH (R100). -/
def execDecBatch (segs : List Segment) (bp : Nat) (s : State) : Host.Outcome State Fault Refusal :=
  if s.contended then .refused .concurrent else finishDecode (decodeBatch s.params bp segs s.dec) s

end Sys2Proof.Machine
end

