-- ==== Sys2Proof/Machine/Encoder.lean ====
section
/-! DEFINITION. The frame encoder: ENC.BYTE and ENC.BUF (spec/40_encoder.md). A pure function of its operands: it
reads no DecoderState (R2, R72). -/

namespace Sys2Proof.Machine

/-- R70 step 2, R55: the segment of frame bit `j`: one bit period at the inverted level. -/
def txSegment (v : BitVec 10) (bp j : Nat) : Segment := ⟨bp, !frameBit v j⟩

/-- R70: the pair that starts at frame bit `i`. -/
def txPair (v : BitVec 10) (bp i : Nat) : Pair := ⟨txSegment v bp i, txSegment v bp (i + 1)⟩

/-- R70: one byte to five pairs, `for i in 0, 2, 4, 6, 8`. -/
def encodeByte (b : Byte) (bp : Nat) : List Pair := [0, 2, 4, 6, 8].map (txPair (frameOf b) bp)

/-- R71: a byte sequence to pairs, the bytes in order. -/
def encodeBytes (bytes : List Byte) (bp : Nat) : List Pair := bytes.flatMap fun b => encodeByte b bp

/-- R71: ENC.BUF on legal operands: `Overflow` exactly where `10 * n > CAP`, and otherwise all the segments. -/
def encodeBuffer (bytes : List Byte) (bp cap : Nat) (s : State) : State :=
  if 10 * bytes.length > cap then s.overflow else s.encoded (encodeBytes bytes bp)

/-- ENC.BYTE (R70). -/
def execEncByte (b : Byte) (bp : Nat) (s : State) : Host.Outcome State Fault Refusal :=
  if BpLegal s.params bp then .next (s.encoded (encodeByte b bp)) else .refused .badConfig

/-- ENC.BUF (R71). -/
def execEncBuf (bytes : List Byte) (bp cap : Nat) (s : State) : Host.Outcome State Fault Refusal :=
  if BpLegal s.params bp then .next (encodeBuffer bytes bp cap s) else .refused .badConfig

end Sys2Proof.Machine
end

