-- ==== Sys2Proof/Machine/System.lean ====
section
/-! DEFINITION. Initialisation and the byte-stream operations: DEC.INIT, WRITE, READ (spec/43_system_ops.md). -/

namespace Sys2Proof.Machine

/-- DEC.INIT (R110): at any time, in place of the state that was there. -/
def execDecInit (s : State) : Host.Outcome State Fault Refusal :=
  if s.contended then .refused .concurrent else .next s.initDecoder

/-- R111 after ENC.BUF: failure on `Overflow`; otherwise the hand-off, unless there is nothing to send and
`WRITE_EMPTY` says that an empty write does not reach the transmitter. -/
def transmit (s : State) : State :=
  if s.encResult = .overflow then s.wrote .failure
  else if s.txPairs = [] ∧ s.params.writeEmptySends = false then s.wroteNothing
  else s.handOff s.nextReport

/-- WRITE (R111): ENC.BUF, then the transmit capability. -/
def execWrite (bytes : List Byte) (bp cap : Nat) (s : State) : Host.Outcome State Fault Refusal :=
  if BpLegal s.params bp then .next (transmit (encodeBuffer bytes bp cap s)) else .refused .badConfig

/-- `READ_EXCESS` `stopEarly`: DEC.SEG over the segments until `room` bytes are there; the segments that are left. -/
def decodeUntil (p : Params) (bp : Nat) :
    List Segment → Nat → DecoderState → Except Refusal (DecoderState × List Item × List Segment)
  | [], _, st => .ok (st, [], [])
  | seg :: segs, 0, st => .ok (st, [], seg :: segs)
  | seg :: segs, room + 1, st =>
    match decodeSegment p bp seg st with
    | .error r => .error r
    | .ok (st', items) =>
      match decodeUntil p bp segs (room + 1 - (rxBytes items).length) st' with
      | .error r => .error r
      | .ok (st'', items', left) => .ok (st'', items ++ items', left)

/-- One batch of a READ (R112): DEC.BATCH of it, or as much of it as `READ_EXCESS` lets be decoded. -/
def readBatch (p : Params) (bp room : Nat) (batch : List Segment) (st : DecoderState) :
    Except Refusal (DecoderState × List Item × List Segment) :=
  match p.readExcess with
  | .stopEarly => if ¬ BpLegal p bp then .error .badConfig else decodeUntil p bp batch room st
  | .drop | .keep =>
    match decodeBatch p bp batch st with
    | .error r => .error r
    | .ok (st', items) => .ok (st', items, [])

/-- The receives of a READ (R112): one, or as many as it takes until `room` bytes are there or one times out; an
entry of `captures` is one receive. -/
def readBatches (p : Params) (bp : Nat) :
    List (List Segment) → Nat → DecoderState → Except Refusal (DecoderState × List Item × List (List Segment))
  | [], _, st => .ok (st, [], [])
  | [] :: rest, _, st => .ok (st, [], rest)
  | (seg :: segs) :: rest, room, st =>
    match readBatch p bp room (seg :: segs) st with
    | .error r => .error r
    | .ok (st', items, left) =>
      let more := room - (rxBytes items).length
      if p.readBatches = .one ∨ more = 0 then .ok (st', items, unread left rest)
      else
        match readBatches p bp rest more st' with
        | .error r => .error r
        | .ok (st'', items', captures) => .ok (st'', items ++ items', captures)

/-- READ once a first batch is there (R112): what it may return depends on the DecoderState it starts in. -/
def readArrived (max bp : Nat) (s : State) : Host.Outcome State Fault Refusal :=
  match readBatches s.params bp s.captures (max - s.kept.length) s.dec with
  | .error r => .refused r
  | .ok (st, items, captures) => .next ((s.delivered max (rxBytes items) captures).decoded st items)

/-- READ (R112). The unit of `timeout` is not stated (`TIMEOUT_UNIT`, D19) and the block has no time (R152): whether
a receive times out is the environment's, in `captures` (notes/assumptions/11.md). -/
def execRead (max _timeout bp : Nat) (s : State) : Host.Outcome State Fault Refusal :=
  if s.contended then .refused .concurrent
  else
    match receive s.captures with
    | (none, rest) => .next (s.timedOut rest)
    | (some _, _) => readArrived max bp s

end Sys2Proof.Machine
end

