-- ==== Sys2Proof/Machine/Dispatch.lean ====
section
/-! DEFINITION. One arm for every operation of the table. -/

namespace Sys2Proof.Machine

def exec (i : Instr) (s : State) : Host.Outcome State Fault Refusal :=
  match i with
  | .encByte b bp => Sys2Proof.Machine.execEncByte b bp s
  | .encBuf bytes bp cap => Sys2Proof.Machine.execEncBuf bytes bp cap s
  | .quant d bp => Sys2Proof.Machine.execQuant d bp s
  | .decSeg seg bp => Sys2Proof.Machine.execDecSeg seg bp s
  | .decBatch segs bp => Sys2Proof.Machine.execDecBatch segs bp s
  | .decInit => Sys2Proof.Machine.execDecInit s
  | .write bytes bp cap => Sys2Proof.Machine.execWrite bytes bp cap s
  | .read maxBytes timeout bp => Sys2Proof.Machine.execRead maxBytes timeout bp s

end Sys2Proof.Machine
end

