-- ==== Sys2Proof/Machine/Step.lean ====
section
/-! DEFINITION. One step: the next pending request is taken off the front and executed as one atomic operation (R6,
R38, R151). With nothing pending the block does nothing: it never waits and has no action of its own (R152, R7). -/

namespace Sys2Proof.Machine

/-- One step of the machine. -/
def step (s : State) : Host.Outcome State Fault Refusal :=
  match fetch s with
  | .idle => .next s
  | .operation i s' => exec i s'
  | .malformed e => .refused (.malformed e)

/-- The state whose next request is the operation of a table word (the host's name). -/
def State.withFetchWord (s : State) (nbits w : Nat) : State := s.placeWord nbits w

end Sys2Proof.Machine
end

