-- ==== Sys2Proof/Machine/Channels.lean ====
section
/-! DEFINITION. `N_CH` logical channels: independent copies of the whole state (R5, R18, R133). The length of the list
is `N_CH` (D14). -/

namespace Sys2Proof.Machine

/-- The channels of one machine. -/
abbrev Channels := List State

/-- A fresh channel that draws its free values from this stream. -/
def State.freshChannel (stream : Nat) : State :=
  { State.reset with params := { State.reset.params with stream := stream } }

/-- `N_CH` fresh channels, each with a stream of free values of its own: they share nothing (R133;
notes/assumptions/19.md). -/
def Channels.reset (nCh : Nat) : Channels := (List.range nCh).map State.freshChannel

/-- A step of channel `k`: it touches no other channel (R38, R133). Where there is no channel `k` nothing happens. -/
def Channels.step (k : Nat) (cs : Channels) : Host.Outcome Channels Fault Refusal :=
  match cs[k]? with
  | none => .next cs
  | some s =>
    match Sys2Proof.Machine.step s with
    | .next s' => .next (cs.set k s')
    | .fault f => .fault f
    | .refused r => .refused r

end Sys2Proof.Machine
end

