-- ==== Sys2Proof/Safety.lean ====
section
/-! DEFINITION. The terms in which claims speak of runs: the invariant of the machine, when an operation is ready to
run, and running a list of operations. -/

namespace Sys2Proof.Machine

/-- What every step keeps. -/
structure State.Inv (s : State) : Prop where
  /-- R5: `DUR_W >= 1`. -/
  width : 1 ≤ s.params.durW
  /-- R11, R13: `BITPOS` and `ACC` hold what the rules allow. -/
  decoder : s.dec.Legal
  /-- R33: the encoder's output is frame-aligned, five pairs to a byte. -/
  frames : s.txPairs.length % 5 = 0
  /-- R50, R70: every duration the encoder wrote is representable. -/
  representable : ∀ seg ∈ s.txSeg, SegmentLegal s.params seg
  /-- R34, R121: after `Overflow` there is no output. -/
  allOrNothing : s.encResult = .overflow → s.txPairs = []
  /-- R134: the last decode's output is the end of the channel's trace. -/
  tail : s.decOut <:+ s.trace
  /-- R112: bytes are held back only where `READ_EXCESS` is `keep`. -/
  held : s.params.readExcess ≠ .keep → s.held = []
  /-- R111: every hand-off asks the transmit capability to wait for completion. -/
  waits : ∀ h ∈ s.handoffs, h.wait = true

/-- The operands are legal, nobody else is at work on the DecoderState an operation uses, and that DecoderState is
legal (R130). -/
def Ready (i : Instr) (s : State) : Prop :=
  match i with
  | .encByte _ bp => BpLegal s.params bp
  | .encBuf _ bp _ => BpLegal s.params bp
  | .quant d bp => BpLegal s.params bp ∧ DurationLegal s.params d
  | .decSeg seg bp => s.contended = false ∧ BpLegal s.params bp ∧ SegmentLegal s.params seg ∧ s.dec.Legal
  | .decBatch segs bp =>
      s.contended = false ∧ BpLegal s.params bp ∧ (∀ seg ∈ segs, SegmentLegal s.params seg) ∧
        (segs = [] ∨ s.dec.Legal)
  | .decInit => s.contended = false
  | .write _ bp _ => BpLegal s.params bp
  | .read _ _ bp =>
      s.contended = false ∧ BpLegal s.params bp ∧ s.dec.Legal ∧
        ∀ batch ∈ s.captures, ∀ seg ∈ batch, SegmentLegal s.params seg

/-- Execute operations one after another, in issue order (R38). -/
def execAll : List Instr → State → Host.Outcome State Fault Refusal
  | [], s => .next s
  | i :: is, s =>
    match exec i s with
    | .next s' => execAll is s'
    | .fault f => .fault f
    | .refused r => .refused r

end Sys2Proof.Machine
end

