-- ==== Sys2Proof/Certificates/Slice0/Obligations.lean ====
section
/-! DEFINITION. The statements for the provers. `OBLIGATIONS.json` gives each its title, tier and the rules it rests
on. A free value is never constrained: where a statement meets the report of the transmit capability it holds for
every report. -/

open Sys2Proof Sys2Proof.Machine

/- Requests as bytes -/

/-- opcode_table.json, R58: the eight tags, with operand bytes that are zero, and three words with operands in the
model's own byte form (notes/assumptions/1.md). -/
def Obligations.WrittenWordsDecodeToTheirOperations : Prop :=
  decodeTableWord 8 0 = some (.encByte 0 1) ∧ decodeTableWord 8 1 = some (.encBuf [] 1 0) ∧
  decodeTableWord 8 2 = some (.quant 0 1) ∧ decodeTableWord 8 3 = some (.decSeg ⟨0, false⟩ 1) ∧
  decodeTableWord 8 4 = some (.decBatch [] 1) ∧ decodeTableWord 8 5 = some .decInit ∧
  decodeTableWord 8 6 = some (.write [] 1 0) ∧ decodeTableWord 8 7 = some (.read 0 0 1) ∧
  decode [0x00, 0x64, 0x41] = .ok (.encByte 0x41 100, []) ∧
  decode [0x03, 0x64, 0xF4, 0x03, 0x01] = .ok (.decSeg ⟨500, true⟩ 100, []) ∧
  decode [0x01, 0x64, 0x14, 0x01, 0x41, 0x01, 0x42, 0x00] = .ok (.encBuf [0x41, 0x42] 100 20, [])

/-- The byte form of every operation, with any bytes behind it, is read back as that operation, with every operand at
every value (the model's own form, notes/assumptions/1.md). -/
def Obligations.DecodeOfEncodeIsTheOperation : Prop :=
  ∀ (i : Instr) (rest : List Byte), decode (encode i ++ rest) = .ok (i, rest)

/-- Every operation has exactly one byte form: what the decoder takes off the front is the encoder's form of what it
read. -/
def Obligations.DecodedBytesAreTheEncoding : Prop :=
  ∀ (bs rest : List Byte) (i : Instr), decode bs = .ok (i, rest) → bs = encode i ++ rest

/-- The model's own (notes/assumptions/1.md: the byte form; 3.md: requests placed from outside and taken off the front):
where the front of the requests decodes to an operation, a step is that operation on the state with those bytes taken
off. -/
def Obligations.StepRunsTheDecodedOperation : Prop :=
  ∀ (s : State) (i : Instr) (rest : List Byte),
    decode s.requests = .ok (i, rest) → step s = exec i { s with requests := rest }

/-- The model's own (notes/assumptions/1.md, 3.md): with no request pending a step changes nothing; bytes that are no request are refused by name, and a first byte
above 7 (no tag of opcode_table.json) is one such. -/
def Obligations.StepWithoutAnOperation : Prop :=
  (∀ s : State, s.requests = [] → step s = .next s) ∧
  (∀ (s : State) (e : DecodeError), s.requests ≠ [] → decode s.requests = .error e →
    step s = .refused (.malformed e)) ∧
  (∀ (s : State) (b : Byte) (bs : List Byte), s.requests = b :: bs → 8 ≤ b.toNat →
    step s = .refused (.malformed .reservedTag))

/-- The model's own (notes/assumptions/1.md: the byte form, with bytes of zero above a table word; 3.md: `withFetchWord`
makes one more request and puts it at the front): the operation of a table word that is placed so is the next to run, on
the state as it was, whatever was pending. -/
def Obligations.PlacedTableWordRunsNext : Prop :=
  ∀ (s : State) (nbits w : Nat) (i : Instr),
    decodeTableWord nbits w = some i → step (s.withFetchWord nbits w) = exec i s

/- Reset and the invariant -/

/-- R20, R140 (the values are D3): a fresh channel has BITPOS = 0, ACC = 0 and every output empty. -/
def Obligations.ResetIsAFreshChannel : Prop :=
  State.reset.dec.bitpos = 0 ∧ State.reset.dec.acc = 0 ∧ State.reset.txSeg = [] ∧ State.reset.decOut = [] ∧
  rxBytes State.reset.trace = [] ∧ events State.reset.trace = [] ∧ State.reset.line = []

/-- The invariant holds at reset (its width clause on the presumed DUR_W of notes/assumptions/2.md). -/
def Obligations.InvariantHoldsAtReset : Prop := State.reset.Inv

/-- R11, R13, R33, R34, R111, R112, R134: every step keeps the invariant. -/
def Obligations.EveryStepKeepsTheInvariant : Prop :=
  ∀ s t : State, s.Inv → step s = .next t → t.Inv

/- The encoder -/

/-- R53: the frame value is 2*b + 512; slot 0 is 0, slot 9 is 1, data bit m is slot m + 1. -/
def Obligations.FrameOfAByte : Prop :=
  ∀ b : Byte, (frameOf b).toNat = 2 * b.toNat + 512 ∧ (frameOf b).getLsbD 0 = false ∧
    (frameOf b).getLsbD 9 = true ∧ ∀ m, m < 8 → (frameOf b).getLsbD (m + 1) = b.getLsbD m

/-- R54: the byte of a completed frame is (ACC >> 1) & 0xFF, and it undoes the frame of every byte. -/
def Obligations.ByteOfAFrame : Prop :=
  (∀ acc : BitVec 10, (byteOf acc).toNat = acc.toNat / 2 % 256) ∧ ∀ b : Byte, byteOf (frameOf b) = b

/-- R70: ENC.BYTE completes for every byte and legal bit period. Its output is five pairs, ten segments, segment j of
duration BP at level NOT bit(2*b + 512, j); everything else is unchanged. A bit period that is 0 or not below 2^DUR_W is
refused. -/
def Obligations.EncByteEmitsTheInvertedFrame : Prop :=
  (∀ (b : Byte) (bp : Nat) (s : State), BpLegal s.params bp →
    ∃ t, exec (.encByte b bp) s = .next t ∧ t = { s with txPairs := t.txPairs, encResult := .ok } ∧
      t.txPairs.length = 5 ∧ t.txSeg.length = 10 ∧
      ∀ j, j < 10 → t.txSeg[j]? = some ⟨bp, !(2 * b.toNat + 512).testBit j⟩) ∧
  ∀ (b : Byte) (bp : Nat) (s : State), bp = 0 ∨ 2 ^ s.params.durW ≤ bp →
    exec (.encByte b bp) s = .refused .badConfig

/-- R71, R31, R73: where 10*n <= CAP, ENC.BUF completes with OK and exactly 10*n segments, segment 10*k + j being that
of bit j of byte k's frame; everything else is unchanged. -/
def Obligations.EncBufEmitsEveryFrameInOrder : Prop :=
  ∀ (bytes : List Byte) (bp cap : Nat) (s : State), BpLegal s.params bp → 10 * bytes.length ≤ cap →
    ∃ t, exec (.encBuf bytes bp cap) s = .next t ∧ t = { s with txPairs := t.txPairs, encResult := .ok } ∧
      t.txSeg.length = 10 * bytes.length ∧
      ∀ k j (b : Byte), bytes[k]? = some b → j < 10 →
        t.txSeg[10 * k + j]? = some ⟨bp, !(2 * b.toNat + 512).testBit j⟩

/-- R121, R34: ENC.BUF ends with Overflow exactly where 10*n > CAP; then there are no segments and nothing else changes;
and the next ENC.BUF is judged on its own: it does what it would have done without the failed one. -/
def Obligations.EncBufOverflowIsAllOrNothing : Prop :=
  (∀ (bytes : List Byte) (bp cap : Nat) (s : State), BpLegal s.params bp → cap < 10 * bytes.length →
    ∃ t, exec (.encBuf bytes bp cap) s = .next t ∧ t = { s with txPairs := [], encResult := .overflow } ∧
      t.txSeg = [] ∧ t.encResult.condition = some .overflow) ∧
  (∀ (bytes : List Byte) (bp cap : Nat) (s t : State), exec (.encBuf bytes bp cap) s = .next t →
    (t.encResult = .overflow ↔ cap < 10 * bytes.length)) ∧
  (∀ (bytes bytes' : List Byte) (bp bp' cap cap' : Nat) (s t : State), cap < 10 * bytes.length →
    exec (.encBuf bytes bp cap) s = .next t → exec (.encBuf bytes' bp' cap') t = exec (.encBuf bytes' bp' cap') s)

/-- R73: a successful ENC.BUF of n bytes has a whole number of frames (5*n pairs), every duration BP, and 10*n*BP
ticks in all. -/
def Obligations.EncBufShapeAndTotalDuration : Prop :=
  ∀ (bytes : List Byte) (bp cap : Nat) (s t : State), exec (.encBuf bytes bp cap) s = .next t → t.encResult = .ok →
    t.txPairs.length = 5 * bytes.length ∧ (∀ seg ∈ t.txSeg, seg.duration = bp) ∧
      (t.txSeg.map Segment.duration).sum = 10 * bytes.length * bp

/-- R72: encoding distributes over concatenation where the capacity allows. -/
def Obligations.EncBufDistributesOverConcatenation : Prop :=
  ∀ (x y : List Byte) (bp cap : Nat) (s a b c : State), 10 * (x ++ y).length ≤ cap →
    exec (.encBuf (x ++ y) bp cap) s = .next a → exec (.encBuf x bp cap) s = .next b →
    exec (.encBuf y bp cap) s = .next c → a.txSeg = b.txSeg ++ c.txSeg

/-- R72, R2: the encoder's output depends on its operands only: from any two states of one machine (one DUR_W), whatever
their DecoderStates and earlier calls, it is the same. -/
def Obligations.EncoderDependsOnItsOperandsOnly : Prop :=
  ∀ (bytes : List Byte) (bp cap : Nat) (s s' t : State), s.params.durW = s'.params.durW →
    exec (.encBuf bytes bp cap) s = .next t →
    ∃ t', exec (.encBuf bytes bp cap) s' = .next t' ∧ t'.txSeg = t.txSeg ∧ t'.encResult = t.encResult

/- The quantizer -/

/-- R80: QUANT completes for every legal duration and bit period, its span is floor((2*d + BP) / (2*BP)), and nothing
else changes. BP = 0 is refused. -/
def Obligations.QuantAnswersTheRoundedSpan : Prop :=
  (∀ (d bp : Nat) (s : State), BpLegal s.params bp → DurationLegal s.params d →
    exec (.quant d bp) s = .next { s with span := (2 * d + bp) / (2 * bp) }) ∧
  ∀ (d : Nat) (s : State), exec (.quant d 0) s = .refused .badConfig

/-- R82: with d = k*BP + e, the span is k exactly where -BP <= 2*e < BP. -/
def Obligations.QuantToleranceWindow : Prop :=
  ∀ (d bp k : Nat) (e : Int) (s t : State), exec (.quant d bp) s = .next t → (d : Int) = k * bp + e →
    (t.span = k ↔ -(bp : Int) ≤ 2 * e ∧ 2 * e < bp)

/-- R81, R83: the span is also floor((d + floor(BP/2)) / BP), it is 0 exactly where 2*d < BP, and it is at most d
(R84). -/
def Obligations.QuantEquivalentForm : Prop :=
  ∀ (d bp : Nat) (s t : State), exec (.quant d bp) s = .next t →
    t.span = (d + bp / 2) / bp ∧ (t.span = 0 ↔ 2 * d < bp) ∧ t.span ≤ d

/- The decoder -/

/-- R98, R90: the closed form of DEC.SEG. On legal operands it completes; `p` is BITPOS, `n` the span after the
zero-span fill; every row of the table of R98, with the DecoderState and the output in order; everything else is
unchanged. -/
def Obligations.DecSegClosedForm : Prop :=
  ∀ (seg : Segment) (bp : Nat) (s : State), s.contended = false → BpLegal s.params bp → SegmentLegal s.params seg →
    s.dec.Legal →
    ∃ t, exec (.decSeg seg bp) s = .next t ∧
      t = { s with dec := t.dec, decOut := t.decOut, trace := s.trace ++ t.decOut } ∧
      let p := s.dec.bitpos.toNat
      let q := (2 * seg.duration + bp) / (2 * bp)
      let n := if q = 0 ∧ seg.level = true then 10 - p else q
      if p = 10 then t.dec = s.dec ∧ t.decOut = []
      else if n = 0 then t.dec = s.dec ∧ t.decOut = []
      else if seg.level = true then
        if p = 0 then t.dec = s.dec ∧ t.decOut = [.event .skippedNonStart]
        else if p + n ≤ 9 then
          t.dec.bitpos.toNat = p + n ∧ t.dec.acc = s.dec.acc ||| ones p n ∧ t.decOut = []
        else
          t.dec.bitpos = 0 ∧ t.dec.acc = 0 ∧
          t.decOut = .byte (byteOf (s.dec.acc ||| ones p (10 - p))) ::
            (if p + n = 10 then [] else [.event .skippedNonStart])
      else
        if p + n ≤ 9 then t.dec.bitpos.toNat = p + n ∧ t.dec.acc = s.dec.acc ∧ t.decOut = []
        else t.dec.bitpos = 10 ∧ t.dec.acc = s.dec.acc ∧ t.decOut = [.event .missingStopBit]

/-- R99: what one DEC.SEG puts out is one of five things; a low segment gives no byte and no SkippedNonStart, a high
one no MissingStopBit. -/
def Obligations.DecSegOutputShapes : Prop :=
  ∀ (seg : Segment) (bp : Nat) (s t : State), exec (.decSeg seg bp) s = .next t →
    (t.decOut = [] ∨ (∃ b, t.decOut = [.byte b]) ∨ (∃ b, t.decOut = [.byte b, .event .skippedNonStart]) ∨
      t.decOut = [.event .skippedNonStart] ∨ t.decOut = [.event .missingStopBit]) ∧
    (seg.level = false → rxBytes t.decOut = [] ∧ .skippedNonStart ∉ events t.decOut) ∧
    (seg.level = true → .missingStopBit ∉ events t.decOut)

/-- R92, R104, R122: a high segment at BITPOS = 0, of any legal duration, zero span included, puts out exactly one
SkippedNonStart and leaves BITPOS and ACC as they are. -/
def Obligations.IdleSegmentIsSkipped : Prop :=
  ∀ (d bp : Nat) (s : State), s.contended = false → BpLegal s.params bp → DurationLegal s.params d → s.dec.Legal →
    s.dec.bitpos = 0 →
    exec (.decSeg ⟨d, true⟩ bp) s =
      .next { s with decOut := [.event .skippedNonStart], trace := s.trace ++ [.event .skippedNonStart] }

/-- R91, R145: a high segment of less than half a bit period in an open frame completes the byte with ones in every
slot not yet filled, and with no event; at BITPOS = 0 it is one SkippedNonStart and no state change. -/
def Obligations.ZeroSpanHighCompletesTheByte : Prop :=
  (∀ (d bp : Nat) (s : State), s.contended = false → BpLegal s.params bp → DurationLegal s.params d → s.dec.Legal →
    2 * d < bp → 1 ≤ s.dec.bitpos.toNat → s.dec.bitpos.toNat ≤ 9 →
    ∃ t b, exec (.decSeg ⟨d, true⟩ bp) s = .next t ∧ t.dec.bitpos = 0 ∧ t.dec.acc = 0 ∧ t.decOut = [.byte b] ∧
      ∀ m, m < 8 → b.getLsbD m = if m + 1 < s.dec.bitpos.toNat then s.dec.acc.getLsbD (m + 1) else true) ∧
  (∀ (d bp : Nat) (s : State), s.contended = false → BpLegal s.params bp → DurationLegal s.params d → s.dec.Legal →
    2 * d < bp → s.dec.bitpos = 0 →
    ∃ t, exec (.decSeg ⟨d, true⟩ bp) s = .next t ∧ t.dec = s.dec ∧ t.decOut = [.event .skippedNonStart])

/-- R97: a low segment of less than half a bit period has no effect of any kind, in every legal state: no byte, no
event, the DecoderState as it was. -/
def Obligations.ZeroSpanLowHasNoEffect : Prop :=
  ∀ (d bp : Nat) (s : State), s.contended = false → BpLegal s.params bp → DurationLegal s.params d → s.dec.Legal →
    2 * d < bp → exec (.decSeg ⟨d, false⟩ bp) s = .next { s with decOut := [] }

/-- R94, R123, R126: a low segment that reaches slot 9 puts out MissingStopBit and no byte, and leaves BITPOS = 10 and
ACC with the slots 0..8 of the failed frame, bit 9 = 0. -/
def Obligations.MissingStopBitWedges : Prop :=
  ∀ (d bp : Nat) (s : State), s.contended = false → BpLegal s.params bp → DurationLegal s.params d → s.dec.Legal →
    s.dec.bitpos.toNat ≤ 9 → 10 ≤ s.dec.bitpos.toNat + (2 * d + bp) / (2 * bp) →
    ∃ t, exec (.decSeg ⟨d, false⟩ bp) s = .next t ∧ t.dec.bitpos = 10 ∧ t.dec.acc = s.dec.acc ∧
      t.dec.acc.getLsbD 9 = false ∧ t.decOut = [.event .missingStopBit] ∧ t.trace = s.trace ++ [.event .missingStopBit]

/-- R126: the state that each condition leaves. Overflow: BITPOS and ACC untouched, no segments. SkippedNonStart: both
0, and the bytes before it stand. MissingStopBit: BITPOS = 10, ACC holds slots 0..8 of the failed frame (what it held, the
failing run being low) with bit 9 = 0, the failed byte is not put out, and what came before stands. Nothing
else changes. -/
def Obligations.ConditionsLeaveTheStateOfTheTable : Prop :=
  (∀ (bytes : List Byte) (bp cap : Nat) (s t : State), exec (.encBuf bytes bp cap) s = .next t →
    t.encResult = .overflow → t = { s with txPairs := [], encResult := .overflow } ∧ t.dec = s.dec ∧ t.txSeg = []) ∧
  (∀ (seg : Segment) (bp : Nat) (s t : State), exec (.decSeg seg bp) s = .next t →
    .skippedNonStart ∈ events t.decOut →
    t = { s with dec := t.dec, decOut := t.decOut, trace := s.trace ++ t.decOut } ∧
      s.dec.bitpos.toNat ≤ 9 ∧ t.dec.bitpos = 0 ∧ t.dec.acc = 0 ∧ (s.dec.bitpos = 0 → t.dec = s.dec) ∧
      t.decOut = (rxBytes t.decOut).map Item.byte ++ [.event .skippedNonStart]) ∧
  (∀ (seg : Segment) (bp : Nat) (s t : State), exec (.decSeg seg bp) s = .next t →
    .missingStopBit ∈ events t.decOut →
    t = { s with dec := t.dec, decOut := t.decOut, trace := s.trace ++ t.decOut } ∧
      t.dec.bitpos = 10 ∧ t.dec.acc = s.dec.acc ∧ t.dec.acc.getLsbD 9 = false ∧
      (∀ j, s.dec.bitpos.toNat ≤ j → t.dec.acc.getLsbD j = false) ∧ rxBytes t.decOut = [])

/-- R103, R95, R13: the byte that a segment completes has data bit m equal to the level of slot m + 1: what ACC had
recorded for the slots below BITPOS, and high for the slots this segment fills; slot 0 of its frame was low. -/
def Obligations.EmittedByteIsItsFrame : Prop :=
  ∀ (seg : Segment) (bp : Nat) (s t : State) (b : Byte), exec (.decSeg seg bp) s = .next t →
    .byte b ∈ t.decOut →
    seg.level = true ∧ 1 ≤ s.dec.bitpos.toNat ∧ s.dec.bitpos.toNat ≤ 9 ∧ s.dec.acc.getLsbD 0 = false ∧
      t.dec.bitpos = 0 ∧ t.dec.acc = 0 ∧
      ∀ m, m < 8 → b.getLsbD m = (decide (s.dec.bitpos.toNat ≤ m + 1) || s.dec.acc.getLsbD (m + 1))

/-- R84: a span above 11 may be clamped to 11 with no visible change. -/
def Obligations.SpanMayBeClampedToEleven : Prop :=
  ∀ (l : Level) (n : Nat) (st : DecoderState), st.Legal → st.bitpos.toNat ≤ 9 → 11 ≤ n →
    slots l n st = slots l 11 st

/-- R57: a run of equal levels decodes identically as one segment and as two, each a whole number of bit periods: a low
run in every legal state, and a high run in an open frame whose first part does not reach beyond the end of
the frame. The two outcomes are the same state, the output included. -/
def Obligations.MergedRunsDecodeIdentically : Prop :=
  ∀ (m n bp : Nat) (l : Level) (s : State), s.contended = false → BpLegal s.params bp → s.dec.Legal →
    DurationLegal s.params ((m + n) * bp) → 1 ≤ m → 1 ≤ n → (l = true → 1 ≤ s.dec.bitpos.toNat) →
    (l = true → s.dec.bitpos.toNat + m ≤ 10) →
    exec (.decBatch [⟨m * bp, l⟩, ⟨n * bp, l⟩] bp) s = exec (.decSeg ⟨(m + n) * bp, l⟩ bp) s

/-- R100, R127, R35: DEC.BATCH completes on legal operands from a legal state, whatever diagnostics its segments raise;
a batch of no segments changes no state and puts nothing out; otherwise it is DEC.SEG of the first segment, then
DEC.BATCH of the others, their outputs one after the other. Everything else is unchanged. -/
def Obligations.DecBatchIsSegmentsInOrder : Prop :=
  (∀ (segs : List Segment) (bp : Nat) (s : State), s.contended = false → BpLegal s.params bp →
    (∀ seg ∈ segs, SegmentLegal s.params seg) → s.dec.Legal →
    ∃ t, exec (.decBatch segs bp) s = .next t ∧
      t = { s with dec := t.dec, decOut := t.decOut, trace := s.trace ++ t.decOut } ∧ t.dec.Legal) ∧
  (∀ (bp : Nat) (s : State), s.contended = false → BpLegal s.params bp →
    exec (.decBatch [] bp) s = .next { s with decOut := [] }) ∧
  (∀ (seg : Segment) (segs : List Segment) (bp : Nat) (s a b t : State),
    exec (.decSeg seg bp) s = .next a → exec (.decBatch segs bp) a = .next b →
    exec (.decBatch (seg :: segs) bp) s = .next t →
    t.dec = b.dec ∧ t.trace = b.trace ∧ t.decOut = a.decOut ++ b.decOut)

/-- R101: DEC.BATCH of x ++ y has the same final DecoderState and the same output trace as DEC.BATCH of x followed by
DEC.BATCH of y, from any state; and the one completes exactly where the other does. -/
def Obligations.BatchSplitInvariance : Prop :=
  ∀ (x y : List Segment) (bp : Nat) (s : State),
    (∀ a b, exec (.decBatch x bp) s = .next a → exec (.decBatch y bp) a = .next b →
      exec (.decBatch (x ++ y) bp) s = .next { b with decOut := a.decOut ++ b.decOut }) ∧
    (∀ t, exec (.decBatch (x ++ y) bp) s = .next t →
      ∃ a b, exec (.decBatch x bp) s = .next a ∧ exec (.decBatch y bp) a = .next b ∧ b.dec = t.dec ∧ b.trace = t.trace)

/-- R102, R44: the round trip. From a fresh DecoderState, the inverted output of a successful ENC.BUF, cut into batches
in any way, decodes to exactly the bytes, with no events, and leaves (0, 0). -/
def Obligations.RoundTrip : Prop :=
  ∀ (bytes : List Byte) (bp cap : Nat) (batches : List (List Segment)) (s e : State), s.contended = false →
    s.dec = ⟨0, 0⟩ → 10 * bytes.length ≤ cap → exec (.encBuf bytes bp cap) s = .next e →
    batches.flatten = inv e.txSeg →
    ∃ t, execAll (batches.map fun batch => .decBatch batch bp) e = .next t ∧ t.dec = ⟨0, 0⟩ ∧
      t.trace = s.trace ++ bytes.map Item.byte

/-- R102, C8: idle between frames. High segments in front of a batch, where no frame is open, change neither the bytes
it yields nor the DecoderState it ends in; each adds one SkippedNonStart. -/
def Obligations.IdleBetweenFramesAddsOnlySkips : Prop :=
  ∀ (idle segs : List Segment) (bp : Nat) (s t : State), (∀ seg ∈ idle, seg.level = true) →
    s.dec.bitpos = 0 → exec (.decBatch (idle ++ segs) bp) s = .next t →
    ∃ u, exec (.decBatch segs bp) s = .next u ∧ t.dec = u.dec ∧
      t.decOut = List.replicate idle.length (.event .skippedNonStart) ++ u.decOut ∧
      rxBytes t.decOut = rxBytes u.decOut

/-- R143, R44: the polarity hazard. The encoder's output for a byte, fed without the inversion to a fresh DecoderState,
yields no byte. -/
def Obligations.UninvertedFrameYieldsNoByte : Prop :=
  ∀ (b : Byte) (bp : Nat) (s e t : State), s.dec = ⟨0, 0⟩ → exec (.encByte b bp) s = .next e →
    exec (.decBatch e.txSeg bp) e = .next t →
    rxBytes t.decOut = [] ∧ t.decOut.head? = some (.event .skippedNonStart)

/- Initialisation, WRITE and READ -/

/-- R110 (its values are D3): DEC.INIT, applied at any time, WEDGED and in mid-frame too, leaves BITPOS = 0 and ACC = 0
and changes nothing else: no output, no event. -/
def Obligations.DecInitMakesAFreshDecoder : Prop :=
  ∀ s : State, s.contended = false → exec .decInit s = .next { s with dec := ⟨0, 0⟩ }

/-- R111: a WRITE that overflows is a failure, nothing is transmitted, and no state of the decoder changes. -/
def Obligations.WriteOverflowTransmitsNothing : Prop :=
  ∀ (bytes : List Byte) (bp cap : Nat) (s : State), BpLegal s.params bp → cap < 10 * bytes.length →
    exec (.write bytes bp cap) s = .next { s with txPairs := [], encResult := .overflow, writeResult := .failure }

/-- R111, R42: a WRITE of at least one byte that fits completes: it encodes as ENC.BUF does and hands the frames over once,
with the flag to wait; success where the capability reports completion, and then the line has carried the inverted
segments; failure where it reports failure. Everything else is unchanged, the DecoderState too. The model's choice
(notes/assumptions/10.md, 19.md): the report is the first that the input names, or else the free value of the channel's
stream, and on a failure the line has carried what the report says. -/
def Obligations.WriteHandsTheFramesOver : Prop :=
  ∀ (bytes : List Byte) (bp cap : Nat) (s : State), BpLegal s.params bp → bytes ≠ [] → 10 * bytes.length ≤ cap →
    ∃ e t, exec (.encBuf bytes bp cap) s = .next e ∧ exec (.write bytes bp cap) s = .next t ∧
      t = { e with handoffs := s.handoffs ++ [⟨e.txPairs, true⟩], txReports := s.txReports.tail, line := t.line,
                   writeResult := t.writeResult } ∧
      match s.txReports.head?.getD (Config.txReport s.params.stream s.handoffs.length) with
      | .completed => t.writeResult = .success ∧ t.line = s.line ++ inv e.txSeg
      | .failed driven => t.writeResult = .failure ∧ t.line = s.line ++ driven

/-- R111, N12 (the model's choice: WRITE_EMPTY is a parameter, notes/assumptions/9.md; the result where nothing is sent
is a free value, 18.md; the report of a hand-off, 10.md and 19.md): a WRITE of no bytes encodes to OK with no segments.
Where the parameter says that it does not reach the transmitter there is no hand-off, the model's counter goes up and the
result is success or failure. Where it says that it does, there is one hand-off of nothing, with the flag to wait, which
takes one report: on completion the WRITE is a success and the line has carried nothing more, on a failure it is a failure
and the line has carried what the report says. Nothing else changes. -/
def Obligations.EmptyWriteFollowsItsParameter : Prop :=
  ∀ (bp cap : Nat) (s : State), BpLegal s.params bp →
    ∃ t, exec (.write [] bp cap) s = .next t ∧ t.txSeg = [] ∧
      (s.params.writeEmptySends = false →
        t = { s with txPairs := [], encResult := .ok, unsent := s.unsent + 1, writeResult := t.writeResult } ∧
          t.writeResult ≠ .none) ∧
      (s.params.writeEmptySends = true →
        t = { s with txPairs := [], encResult := .ok, handoffs := s.handoffs ++ [⟨[], true⟩],
                     txReports := s.txReports.tail, line := t.line, writeResult := t.writeResult } ∧
          match s.txReports.head?.getD (Config.txReport s.params.stream s.handoffs.length) with
          | .completed => t.writeResult = .success ∧ t.line = s.line
          | .failed driven => t.writeResult = .failure ∧ t.line = s.line ++ driven)

/-- R112: a READ in which nothing arrives before the timeout returns no bytes, puts nothing out and leaves the
DecoderState, the trace and what is kept as they are; the receive that timed out is over (that a time-out is an input is the model's
choice, notes/assumptions/11.md). -/
def Obligations.ReadTimeoutReturnsNothing : Prop :=
  ∀ (max timeout bp : Nat) (s : State), s.contended = false → (s.captures = [] ∨ s.captures.head? = some []) →
    exec (.read max timeout bp) s =
      .next { s with decOut := [], readBytes := [], captures := s.captures.tail }

/-- R112: a READ completes on legal operands, whatever its parameters are and whatever arrives; it returns at most
`max_bytes` bytes; it appends what it decoded to the trace, leaves the DecoderState legal, and changes nothing of the
encoder and the transmit side. -/
def Obligations.ReadCompletesWithinItsBound : Prop :=
  ∀ (max timeout bp : Nat) (s : State), s.contended = false → BpLegal s.params bp → s.dec.Legal →
    (∀ batch ∈ s.captures, ∀ seg ∈ batch, SegmentLegal s.params seg) →
    ∃ t, exec (.read max timeout bp) s = .next t ∧
      t = { s with dec := t.dec, decOut := t.decOut, trace := s.trace ++ t.decOut, readBytes := t.readBytes,
                   held := t.held, captures := t.captures } ∧
      t.readBytes.length ≤ max ∧ t.dec.Legal

/-- R112, R142: where one READ takes one batch and all of it is decoded (`READ_BATCHES` one, `READ_EXCESS` not
stopEarly; parameters of the model, notes/assumptions/9.md), a batch that arrives is decoded as DEC.BATCH decodes it, and
the READ returns the first `max_bytes` of the bytes kept from before and the bytes decoded. On a WEDGED channel it returns
none; that what is kept then stays kept is the model's choice (9.md). -/
def Obligations.ReadOfOneBatchIsDecBatch : Prop :=
  ∀ (max timeout bp : Nat) (batch : List Segment) (rest : List (List Segment)) (s d : State),
    s.params.readBatches = .one → s.params.readExcess ≠ .stopEarly → s.captures = batch :: rest → batch ≠ [] →
    exec (.decBatch batch bp) s = .next d →
    ∃ t, exec (.read max timeout bp) s = .next t ∧ t.dec = d.dec ∧ t.decOut = d.decOut ∧ t.trace = d.trace ∧
      t.captures = rest ∧
      (s.params.readExcess = .drop → t.readBytes = (rxBytes d.decOut).take max ∧ t.held = s.held) ∧
      (s.params.readExcess = .keep → ¬ s.dec.Wedged →
        t.readBytes = (s.held ++ rxBytes d.decOut).take max ∧ t.held = (s.held ++ rxBytes d.decOut).drop max) ∧
      (s.dec.Wedged → t.readBytes = [] ∧ t.held = s.held)

/-- R112 (`READ_BATCHES` several, `READ_EXCESS` not stopEarly; parameters of the model, notes/assumptions/9.md): the READ
decodes the first batches of what is to come, each whole, as DEC.BATCH of their segments decodes them. It takes a first
batch, and goes on until `max_bytes` bytes are there or a receive times out, and no longer. It returns the first
`max_bytes` of the bytes kept from before (none on a WEDGED channel) and the bytes decoded, and keeps the others where
`READ_EXCESS` says so; that what is kept stays kept on a WEDGED channel is the model's choice (9.md). -/
def Obligations.ReadOfSeveralBatchesTakesThemInOrder : Prop :=
  ∀ (max timeout bp : Nat) (s t : State), s.params.readBatches = .several → s.params.readExcess ≠ .stopEarly →
    (∃ seg segs rest, s.captures = (seg :: segs) :: rest) → exec (.read max timeout bp) s = .next t →
    let returnsKept := s.params.readExcess = .keep ∧ ¬ s.dec.Wedged
    let kept := if returnsKept then s.held else []
    ∃ taken d, taken ≠ [] ∧ (∀ batch ∈ taken, batch ≠ []) ∧ exec (.decBatch taken.flatten bp) s = .next d ∧
      t.dec = d.dec ∧ t.decOut = d.decOut ∧ t.trace = d.trace ∧
      t.readBytes = (kept ++ rxBytes d.decOut).take max ∧
      t.held = (if returnsKept then (kept ++ rxBytes d.decOut).drop max else s.held) ∧
      ((s.captures = taken ++ t.captures ∧ max ≤ (kept ++ rxBytes d.decOut).length) ∨
       ((s.captures = taken ++ [] :: t.captures ∨ s.captures = taken ∧ t.captures = []) ∧
          (kept ++ rxBytes d.decOut).length < max)) ∧
      ∀ first d', first ≠ [] → first <+: taken → first ≠ taken → exec (.decBatch first.flatten bp) s = .next d' →
        (kept ++ rxBytes d'.decOut).length < max

/-- R112, READ_EXCESS `keep` (a parameter of the model, notes/assumptions/9.md): no byte is lost and none is returned
twice: what a READ returns and keeps, in order, is what was kept before and what it decoded. -/
def Obligations.KeepingReadLosesNoByte : Prop :=
  ∀ (max timeout bp : Nat) (s t : State), s.params.readExcess = .keep →
    (∃ seg segs rest, s.captures = (seg :: segs) :: rest) → exec (.read max timeout bp) s = .next t →
    t.readBytes ++ t.held = s.held ++ rxBytes t.decOut

/-- R112, READ_EXCESS `stopEarly` with one batch (parameters of the model, notes/assumptions/9.md): the READ decodes the
first segments of the batch as DEC.BATCH does, leaves the others unread at the front of what is to come, and returns every
byte it decoded; segments stay unread only where `max_bytes` bytes are there, and no fewer segments give that many. -/
def Obligations.StoppingReadLeavesTheRestUnread : Prop :=
  ∀ (max timeout bp : Nat) (batch : List Segment) (rest : List (List Segment)) (s t : State),
    s.params.readBatches = .one → s.params.readExcess = .stopEarly → s.captures = batch :: rest → batch ≠ [] →
    exec (.read max timeout bp) s = .next t →
    ∃ used left d, batch = used ++ left ∧ exec (.decBatch used bp) s = .next d ∧ t.dec = d.dec ∧
      t.decOut = d.decOut ∧ t.trace = d.trace ∧ t.readBytes = rxBytes d.decOut ∧ t.held = s.held ∧
      t.readBytes.length ≤ max ∧ (left ≠ [] → t.readBytes.length = max) ∧
      (t.captures = if left = [] then rest else left :: rest) ∧
      ∀ first d', first <+: used → first ≠ used → exec (.decBatch first bp) s = .next d' →
        (rxBytes d'.decOut).length < max

/-- R112, READ_EXCESS `stopEarly` with several batches (parameters of the model, notes/assumptions/9.md): the READ decodes
the first segments of what is to come as DEC.BATCH does and returns every byte it decoded. Either it comes to `max_bytes`
bytes, inside or at the end of a batch, whose other segments then stay unread at the front; or a receive times out with
fewer bytes, and every batch before it was taken whole. No fewer segments give `max_bytes` bytes. -/
def Obligations.StoppingReadOfSeveralStopsAtItsBound : Prop :=
  ∀ (max timeout bp : Nat) (s t : State), s.params.readBatches = .several → s.params.readExcess = .stopEarly →
    (∃ seg segs rest, s.captures = (seg :: segs) :: rest) → exec (.read max timeout bp) s = .next t →
    ∃ taken part d, (∀ batch ∈ taken, batch ≠ []) ∧ exec (.decBatch (taken.flatten ++ part) bp) s = .next d ∧
      t.dec = d.dec ∧ t.decOut = d.decOut ∧ t.trace = d.trace ∧ t.readBytes = rxBytes d.decOut ∧ t.held = s.held ∧
      ((t.readBytes.length = max ∧ ∃ left rest, part ++ left ≠ [] ∧ s.captures = taken ++ (part ++ left) :: rest ∧
          t.captures = if left = [] then rest else left :: rest) ∨
       (t.readBytes.length < max ∧ part = [] ∧
          (s.captures = taken ++ [] :: t.captures ∨ s.captures = taken ∧ t.captures = []))) ∧
      ∀ first d', first <+: taken.flatten ++ part → first ≠ taken.flatten ++ part →
        exec (.decBatch first bp) s = .next d' → (rxBytes d'.decOut).length < max

/-- R41 to R44, R102, R111, R112: a byte sequence written, carried by the line and captured on a channel with a fresh
DecoderState is read back: the READ returns the bytes, with no events (the reports and the captures are the inputs of
notes/assumptions/10.md and 11.md). -/
def Obligations.WrittenBytesAreReadBack : Prop :=
  ∀ (bytes : List Byte) (bp cap max timeout : Nat) (tx w rx : State) (reports : List TxReport), bytes ≠ [] →
    10 * bytes.length ≤ cap → bytes.length ≤ max → BpLegal rx.params bp → tx.line = [] →
    tx.txReports = .completed :: reports → exec (.write bytes bp cap) tx = .next w →
    rx.contended = false → rx.dec = ⟨0, 0⟩ → rx.captures = [w.line] → rx.held = [] →
    ∃ t, exec (.read max timeout bp) rx = .next t ∧ w.writeResult = .success ∧ t.readBytes = bytes ∧
      events t.decOut = []

/- The whole machine -/

/-- R130: broken preconditions. The model's choice: which refusal answers where several are broken
(notes/assumptions/7.md: Concurrent, BadConfig, BadSegment, BadState), and that the input `contended` says where Concurrent
holds (12.md). -/
def Obligations.BrokenPreconditionsAreRefused : Prop :=
  (∀ (s : State) (b : Byte) (bytes : List Byte) (d bp cap : Nat), ¬ BpLegal s.params bp →
    exec (.encByte b bp) s = .refused .badConfig ∧ exec (.encBuf bytes bp cap) s = .refused .badConfig ∧
    exec (.quant d bp) s = .refused .badConfig ∧ exec (.write bytes bp cap) s = .refused .badConfig) ∧
  (∀ (s : State) (seg : Segment) (segs : List Segment) (bp : Nat), s.contended = false → ¬ BpLegal s.params bp →
    exec (.decSeg seg bp) s = .refused .badConfig ∧ exec (.decBatch segs bp) s = .refused .badConfig) ∧
  (∀ (s : State) (seg : Segment) (bp : Nat), s.contended = false → BpLegal s.params bp →
    ¬ SegmentLegal s.params seg → exec (.decSeg seg bp) s = .refused .badSegment) ∧
  (∀ (s : State) (segs : List Segment) (bp : Nat), s.contended = false → BpLegal s.params bp → s.dec.Legal →
    (∃ seg ∈ segs, ¬ SegmentLegal s.params seg) → exec (.decBatch segs bp) s = .refused .badSegment) ∧
  (∀ (s : State) (seg : Segment) (bp : Nat), s.contended = false → BpLegal s.params bp → SegmentLegal s.params seg →
    ¬ s.dec.Legal → exec (.decSeg seg bp) s = .refused .badState) ∧
  (∀ (s : State) (seg : Segment) (segs : List Segment) (bp max timeout : Nat), s.contended = true →
    exec (.decSeg seg bp) s = .refused .concurrent ∧ exec (.decBatch segs bp) s = .refused .concurrent ∧
    exec .decInit s = .refused .concurrent ∧ exec (.read max timeout bp) s = .refused .concurrent)

/-- R130, R152: an operation that is ready answers a next state; and, READ aside (whose receives may not come to an
illegal segment), one that answers a next state was ready. That QUANT is not ready on a duration of 2^DUR_W or more is the
model's reading of R80 and R59 (notes/assumptions/8.md), and that `contended` says where Concurrent holds is its choice
(12.md). -/
def Obligations.OperationsRunExactlyWhenReady : Prop :=
  (∀ (i : Instr) (s : State), Ready i s → ∃ t, exec i s = .next t) ∧
  (∀ (i : Instr) (s t : State), (∀ max timeout bp, i ≠ .read max timeout bp) → exec i s = .next t → Ready i s)

/-- R152, R127, R6: from a state with the invariant, nobody else at work on the channel, any sequence of operations with
legal operands runs to its end, whatever it decodes and whatever is captured, and the invariant holds there. -/
def Obligations.WellFormedSequencesRunToTheirEnd : Prop :=
  ∀ (is : List Instr) (s : State), s.Inv → s.contended = false →
    (∀ batch ∈ s.captures, ∀ seg ∈ batch, SegmentLegal s.params seg) →
    (∀ i ∈ is, WellFormed s.params i = true) → ∃ t, execAll is s = .next t ∧ t.Inv

/-- R2, R38, R72: the encoder, the quantizer and WRITE leave the whole receive side alone: the DecoderState, the output
of the last decode, the trace, what READ returned and keeps, and what is still to be captured. -/
def Obligations.TransmitSideLeavesTheReceiveSide : Prop :=
  ∀ (b : Byte) (bytes : List Byte) (d bp cap : Nat) (i : Instr) (s t : State),
    i ∈ [.encByte b bp, .encBuf bytes bp cap, .quant d bp, .write bytes bp cap] → exec i s = .next t →
    t.dec = s.dec ∧ t.decOut = s.decOut ∧ t.trace = s.trace ∧ t.readBytes = s.readBytes ∧ t.held = s.held ∧
      t.captures = s.captures

/-- R2, R38, R110: the decoder operations leave the whole transmit side alone. -/
def Obligations.ReceiveSideLeavesTheTransmitSide : Prop :=
  ∀ (seg : Segment) (segs : List Segment) (bp max timeout : Nat) (i : Instr) (s t : State),
    i ∈ [.decSeg seg bp, .decBatch segs bp, .decInit, .read max timeout bp] → exec i s = .next t →
    t.txPairs = s.txPairs ∧ t.encResult = s.encResult ∧ t.span = s.span ∧ t.writeResult = s.writeResult ∧
      t.handoffs = s.handoffs ∧ t.line = s.line ∧ t.txReports = s.txReports ∧ t.unsent = s.unsent

/-- R113, R15: no operation sets the parameters, the requests or the ownership of the channel, and the trace is only
ever appended to (R30); nor does a step, but for the bytes of the request it takes. -/
def Obligations.InputsAreReadOnlyAndTheTraceOnlyGrows : Prop :=
  (∀ (i : Instr) (s t : State), exec i s = .next t →
    t.params = s.params ∧ t.contended = s.contended ∧ t.requests = s.requests ∧ s.trace <+: t.trace) ∧
  (∀ s t : State, step s = .next t → t.params = s.params ∧ t.contended = s.contended ∧
    t.requests <:+ s.requests ∧ s.trace <+: t.trace)

/-- R12, R96, R11: BITPOS = 10 is entered only where a MissingStopBit is put out, and no operation but DEC.INIT leaves
it. -/
def Obligations.WedgedIsEnteredAndLeftOnlyAsStated : Prop :=
  (∀ (i : Instr) (s t : State), exec i s = .next t → ¬ s.dec.Wedged → t.dec.Wedged →
    .missingStopBit ∈ events t.decOut) ∧
  (∀ (i : Instr) (s t : State), exec i s = .next t → s.dec.Wedged → i ≠ .decInit →
    t.dec = s.dec ∧ t.trace = s.trace)

/-- R142, R96, R112: once WEDGED, any sequence of operations without DEC.INIT leaves the DecoderState as it is and puts
out neither a byte nor an event; every READ after it returns no bytes, whatever is kept from before, and puts nothing out;
DEC.INIT after it makes reception possible again. The clause that such a READ keeps what is kept is the model's choice
(DESIGN CHOICE, notes/assumptions/9.md). -/
def Obligations.WedgedChannelStaysSilentUntilInit : Prop :=
  ∀ (is : List Instr) (s t : State), s.dec.Wedged → .decInit ∉ is → execAll is s = .next t →
    t.dec = s.dec ∧ t.trace = s.trace ∧
      (∀ max timeout bp u, exec (.read max timeout bp) t = .next u →
        u.readBytes = [] ∧ u.decOut = [] ∧ u.held = t.held) ∧
      (t.contended = false → ∃ u, exec .decInit t = .next u ∧ u.dec = ⟨0, 0⟩)

/-- R38: an operation of the transmit side and one of the receive side of the same channel commute. -/
def Obligations.EncoderAndDecoderCommute : Prop :=
  ∀ (i j : Instr) (s a b c d : State),
    (match i with | .encByte _ _ | .encBuf _ _ _ | .quant _ _ | .write _ _ _ => True | _ => False) →
    (match j with | .decSeg _ _ | .decBatch _ _ | .decInit | .read _ _ _ => True | _ => False) →
    exec i s = .next a → exec j a = .next b → exec j s = .next c → exec i c = .next d → b = d

/-- R38, R133: steps of two different channels commute, and neither touches the other's state. -/
def Obligations.DifferentChannelsCommute : Prop :=
  ∀ (k l : Nat) (cs a b c d : Channels), k ≠ l → Channels.step k cs = .next a → Channels.step l a = .next b →
    Channels.step l cs = .next c → Channels.step k c = .next d → b = d ∧ a[l]? = cs[l]? ∧ a.length = cs.length

/-- R120 (the numbers are D8): the codes of the three conditions. -/
def Obligations.ConditionCodes : Prop :=
  Condition.code .overflow = 1 ∧ Condition.code .skippedNonStart = 2 ∧ Condition.code .missingStopBit = 3 ∧
    Event.condition .skippedNonStart = .skippedNonStart ∧ Event.condition .missingStopBit = .missingStopBit

/-- R134: RXBYTES is the trace with the events removed and EVT the trace with the bytes removed: a byte appears in the
first alone and an event in the second alone, each is its part of the trace in the trace's order, each grows with the
trace, and together they lose nothing. -/
def Obligations.TraceProjections : Prop :=
  (∀ b : Byte, rxBytes [.byte b] = [b] ∧ events [.byte b] = []) ∧
  (∀ e : Event, rxBytes [.event e] = [] ∧ events [.event e] = [e]) ∧
  (∀ x y : List Item, rxBytes (x ++ y) = rxBytes x ++ rxBytes y ∧ events (x ++ y) = events x ++ events y) ∧
  ∀ x : List Item, ((rxBytes x).map Item.byte).Sublist x ∧ ((events x).map Item.event).Sublist x ∧
    x.Perm ((rxBytes x).map Item.byte ++ (events x).map Item.event)
end

