-- ==== Sys2Proof/Laws/State.lean ====
section
/-! SUPPORT. One lemma per field per update of State, so that no proof unfolds a record update. -/

namespace Sys2Proof.Machine

variable (s : State)

@[simp] theorem State.encoded_params (pairs : List Pair) : (s.encoded pairs).params = s.params := rfl
@[simp] theorem State.encoded_dec (pairs : List Pair) : (s.encoded pairs).dec = s.dec := rfl
@[simp] theorem State.encoded_txPairs (pairs : List Pair) : (s.encoded pairs).txPairs = pairs := rfl
@[simp] theorem State.encoded_encResult (pairs : List Pair) : (s.encoded pairs).encResult = .ok := rfl
@[simp] theorem State.encoded_span (pairs : List Pair) : (s.encoded pairs).span = s.span := rfl
@[simp] theorem State.encoded_decOut (pairs : List Pair) : (s.encoded pairs).decOut = s.decOut := rfl
@[simp] theorem State.encoded_trace (pairs : List Pair) : (s.encoded pairs).trace = s.trace := rfl
@[simp] theorem State.encoded_writeResult (pairs : List Pair) : (s.encoded pairs).writeResult = s.writeResult := rfl
@[simp] theorem State.encoded_readBytes (pairs : List Pair) : (s.encoded pairs).readBytes = s.readBytes := rfl
@[simp] theorem State.encoded_held (pairs : List Pair) : (s.encoded pairs).held = s.held := rfl
@[simp] theorem State.encoded_handoffs (pairs : List Pair) : (s.encoded pairs).handoffs = s.handoffs := rfl
@[simp] theorem State.encoded_line (pairs : List Pair) : (s.encoded pairs).line = s.line := rfl
@[simp] theorem State.encoded_txReports (pairs : List Pair) : (s.encoded pairs).txReports = s.txReports := rfl
@[simp] theorem State.encoded_unsent (pairs : List Pair) : (s.encoded pairs).unsent = s.unsent := rfl
@[simp] theorem State.encoded_captures (pairs : List Pair) : (s.encoded pairs).captures = s.captures := rfl
@[simp] theorem State.encoded_contended (pairs : List Pair) : (s.encoded pairs).contended = s.contended := rfl
@[simp] theorem State.encoded_requests (pairs : List Pair) : (s.encoded pairs).requests = s.requests := rfl

@[simp] theorem State.overflow_params : (s.overflow).params = s.params := rfl
@[simp] theorem State.overflow_dec : (s.overflow).dec = s.dec := rfl
@[simp] theorem State.overflow_txPairs : (s.overflow).txPairs = [] := rfl
@[simp] theorem State.overflow_encResult : (s.overflow).encResult = .overflow := rfl
@[simp] theorem State.overflow_span : (s.overflow).span = s.span := rfl
@[simp] theorem State.overflow_decOut : (s.overflow).decOut = s.decOut := rfl
@[simp] theorem State.overflow_trace : (s.overflow).trace = s.trace := rfl
@[simp] theorem State.overflow_writeResult : (s.overflow).writeResult = s.writeResult := rfl
@[simp] theorem State.overflow_readBytes : (s.overflow).readBytes = s.readBytes := rfl
@[simp] theorem State.overflow_held : (s.overflow).held = s.held := rfl
@[simp] theorem State.overflow_handoffs : (s.overflow).handoffs = s.handoffs := rfl
@[simp] theorem State.overflow_line : (s.overflow).line = s.line := rfl
@[simp] theorem State.overflow_txReports : (s.overflow).txReports = s.txReports := rfl
@[simp] theorem State.overflow_unsent : (s.overflow).unsent = s.unsent := rfl
@[simp] theorem State.overflow_captures : (s.overflow).captures = s.captures := rfl
@[simp] theorem State.overflow_contended : (s.overflow).contended = s.contended := rfl
@[simp] theorem State.overflow_requests : (s.overflow).requests = s.requests := rfl

@[simp] theorem State.quantized_params (n : Nat) : (s.quantized n).params = s.params := rfl
@[simp] theorem State.quantized_dec (n : Nat) : (s.quantized n).dec = s.dec := rfl
@[simp] theorem State.quantized_txPairs (n : Nat) : (s.quantized n).txPairs = s.txPairs := rfl
@[simp] theorem State.quantized_encResult (n : Nat) : (s.quantized n).encResult = s.encResult := rfl
@[simp] theorem State.quantized_span (n : Nat) : (s.quantized n).span = n := rfl
@[simp] theorem State.quantized_decOut (n : Nat) : (s.quantized n).decOut = s.decOut := rfl
@[simp] theorem State.quantized_trace (n : Nat) : (s.quantized n).trace = s.trace := rfl
@[simp] theorem State.quantized_writeResult (n : Nat) : (s.quantized n).writeResult = s.writeResult := rfl
@[simp] theorem State.quantized_readBytes (n : Nat) : (s.quantized n).readBytes = s.readBytes := rfl
@[simp] theorem State.quantized_held (n : Nat) : (s.quantized n).held = s.held := rfl
@[simp] theorem State.quantized_handoffs (n : Nat) : (s.quantized n).handoffs = s.handoffs := rfl
@[simp] theorem State.quantized_line (n : Nat) : (s.quantized n).line = s.line := rfl
@[simp] theorem State.quantized_txReports (n : Nat) : (s.quantized n).txReports = s.txReports := rfl
@[simp] theorem State.quantized_unsent (n : Nat) : (s.quantized n).unsent = s.unsent := rfl
@[simp] theorem State.quantized_captures (n : Nat) : (s.quantized n).captures = s.captures := rfl
@[simp] theorem State.quantized_contended (n : Nat) : (s.quantized n).contended = s.contended := rfl
@[simp] theorem State.quantized_requests (n : Nat) : (s.quantized n).requests = s.requests := rfl
@[simp] theorem State.quantized_txSeg (n : Nat) : (s.quantized n).txSeg = s.txSeg := rfl

@[simp] theorem State.decoded_params (st : DecoderState) (items : List Item) : (s.decoded st items).params = s.params := rfl
@[simp] theorem State.decoded_dec (st : DecoderState) (items : List Item) : (s.decoded st items).dec = st := rfl
@[simp] theorem State.decoded_txPairs (st : DecoderState) (items : List Item) : (s.decoded st items).txPairs = s.txPairs := rfl
@[simp] theorem State.decoded_encResult (st : DecoderState) (items : List Item) : (s.decoded st items).encResult = s.encResult := rfl
@[simp] theorem State.decoded_span (st : DecoderState) (items : List Item) : (s.decoded st items).span = s.span := rfl
@[simp] theorem State.decoded_decOut (st : DecoderState) (items : List Item) : (s.decoded st items).decOut = items := rfl
@[simp] theorem State.decoded_trace (st : DecoderState) (items : List Item) : (s.decoded st items).trace = s.trace ++ items := rfl
@[simp] theorem State.decoded_writeResult (st : DecoderState) (items : List Item) : (s.decoded st items).writeResult = s.writeResult := rfl
@[simp] theorem State.decoded_readBytes (st : DecoderState) (items : List Item) : (s.decoded st items).readBytes = s.readBytes := rfl
@[simp] theorem State.decoded_held (st : DecoderState) (items : List Item) : (s.decoded st items).held = s.held := rfl
@[simp] theorem State.decoded_handoffs (st : DecoderState) (items : List Item) : (s.decoded st items).handoffs = s.handoffs := rfl
@[simp] theorem State.decoded_line (st : DecoderState) (items : List Item) : (s.decoded st items).line = s.line := rfl
@[simp] theorem State.decoded_txReports (st : DecoderState) (items : List Item) : (s.decoded st items).txReports = s.txReports := rfl
@[simp] theorem State.decoded_unsent (st : DecoderState) (items : List Item) : (s.decoded st items).unsent = s.unsent := rfl
@[simp] theorem State.decoded_captures (st : DecoderState) (items : List Item) : (s.decoded st items).captures = s.captures := rfl
@[simp] theorem State.decoded_contended (st : DecoderState) (items : List Item) : (s.decoded st items).contended = s.contended := rfl
@[simp] theorem State.decoded_requests (st : DecoderState) (items : List Item) : (s.decoded st items).requests = s.requests := rfl
@[simp] theorem State.decoded_txSeg (st : DecoderState) (items : List Item) : (s.decoded st items).txSeg = s.txSeg := rfl

@[simp] theorem State.initDecoder_params : (s.initDecoder).params = s.params := rfl
@[simp] theorem State.initDecoder_dec : (s.initDecoder).dec = DecoderState.fresh := rfl
@[simp] theorem State.initDecoder_txPairs : (s.initDecoder).txPairs = s.txPairs := rfl
@[simp] theorem State.initDecoder_encResult : (s.initDecoder).encResult = s.encResult := rfl
@[simp] theorem State.initDecoder_span : (s.initDecoder).span = s.span := rfl
@[simp] theorem State.initDecoder_decOut : (s.initDecoder).decOut = s.decOut := rfl
@[simp] theorem State.initDecoder_trace : (s.initDecoder).trace = s.trace := rfl
@[simp] theorem State.initDecoder_writeResult : (s.initDecoder).writeResult = s.writeResult := rfl
@[simp] theorem State.initDecoder_readBytes : (s.initDecoder).readBytes = s.readBytes := rfl
@[simp] theorem State.initDecoder_held : (s.initDecoder).held = s.held := rfl
@[simp] theorem State.initDecoder_handoffs : (s.initDecoder).handoffs = s.handoffs := rfl
@[simp] theorem State.initDecoder_line : (s.initDecoder).line = s.line := rfl
@[simp] theorem State.initDecoder_txReports : (s.initDecoder).txReports = s.txReports := rfl
@[simp] theorem State.initDecoder_unsent : (s.initDecoder).unsent = s.unsent := rfl
@[simp] theorem State.initDecoder_captures : (s.initDecoder).captures = s.captures := rfl
@[simp] theorem State.initDecoder_contended : (s.initDecoder).contended = s.contended := rfl
@[simp] theorem State.initDecoder_requests : (s.initDecoder).requests = s.requests := rfl
@[simp] theorem State.initDecoder_txSeg : (s.initDecoder).txSeg = s.txSeg := rfl

@[simp] theorem State.wrote_params (r : WriteResult) : (s.wrote r).params = s.params := rfl
@[simp] theorem State.wrote_dec (r : WriteResult) : (s.wrote r).dec = s.dec := rfl
@[simp] theorem State.wrote_txPairs (r : WriteResult) : (s.wrote r).txPairs = s.txPairs := rfl
@[simp] theorem State.wrote_encResult (r : WriteResult) : (s.wrote r).encResult = s.encResult := rfl
@[simp] theorem State.wrote_span (r : WriteResult) : (s.wrote r).span = s.span := rfl
@[simp] theorem State.wrote_decOut (r : WriteResult) : (s.wrote r).decOut = s.decOut := rfl
@[simp] theorem State.wrote_trace (r : WriteResult) : (s.wrote r).trace = s.trace := rfl
@[simp] theorem State.wrote_writeResult (r : WriteResult) : (s.wrote r).writeResult = r := rfl
@[simp] theorem State.wrote_readBytes (r : WriteResult) : (s.wrote r).readBytes = s.readBytes := rfl
@[simp] theorem State.wrote_held (r : WriteResult) : (s.wrote r).held = s.held := rfl
@[simp] theorem State.wrote_handoffs (r : WriteResult) : (s.wrote r).handoffs = s.handoffs := rfl
@[simp] theorem State.wrote_line (r : WriteResult) : (s.wrote r).line = s.line := rfl
@[simp] theorem State.wrote_txReports (r : WriteResult) : (s.wrote r).txReports = s.txReports := rfl
@[simp] theorem State.wrote_unsent (r : WriteResult) : (s.wrote r).unsent = s.unsent := rfl
@[simp] theorem State.wrote_captures (r : WriteResult) : (s.wrote r).captures = s.captures := rfl
@[simp] theorem State.wrote_contended (r : WriteResult) : (s.wrote r).contended = s.contended := rfl
@[simp] theorem State.wrote_requests (r : WriteResult) : (s.wrote r).requests = s.requests := rfl
@[simp] theorem State.wrote_txSeg (r : WriteResult) : (s.wrote r).txSeg = s.txSeg := rfl

@[simp] theorem State.wroteNothing_params : s.wroteNothing.params = s.params := rfl
@[simp] theorem State.wroteNothing_dec : s.wroteNothing.dec = s.dec := rfl
@[simp] theorem State.wroteNothing_txPairs : s.wroteNothing.txPairs = s.txPairs := rfl
@[simp] theorem State.wroteNothing_encResult : s.wroteNothing.encResult = s.encResult := rfl
@[simp] theorem State.wroteNothing_span : s.wroteNothing.span = s.span := rfl
@[simp] theorem State.wroteNothing_decOut : s.wroteNothing.decOut = s.decOut := rfl
@[simp] theorem State.wroteNothing_trace : s.wroteNothing.trace = s.trace := rfl
@[simp] theorem State.wroteNothing_readBytes : s.wroteNothing.readBytes = s.readBytes := rfl
@[simp] theorem State.wroteNothing_held : s.wroteNothing.held = s.held := rfl
@[simp] theorem State.wroteNothing_handoffs : s.wroteNothing.handoffs = s.handoffs := rfl
@[simp] theorem State.wroteNothing_line : s.wroteNothing.line = s.line := rfl
@[simp] theorem State.wroteNothing_txReports : s.wroteNothing.txReports = s.txReports := rfl
@[simp] theorem State.wroteNothing_captures : s.wroteNothing.captures = s.captures := rfl
@[simp] theorem State.wroteNothing_contended : s.wroteNothing.contended = s.contended := rfl
@[simp] theorem State.wroteNothing_requests : s.wroteNothing.requests = s.requests := rfl
@[simp] theorem State.wroteNothing_txSeg : s.wroteNothing.txSeg = s.txSeg := rfl
@[simp] theorem State.wroteNothing_unsent : s.wroteNothing.unsent = s.unsent + 1 := rfl
theorem State.wroteNothing_writeResult : s.wroteNothing.writeResult = .success ∨ s.wroteNothing.writeResult = .failure := by
  unfold State.wroteNothing; dsimp only; split
  · exact .inl rfl
  · exact .inr rfl

@[simp] theorem State.handOff_params (r : TxReport) : (s.handOff r).params = s.params := rfl
@[simp] theorem State.handOff_dec (r : TxReport) : (s.handOff r).dec = s.dec := rfl
@[simp] theorem State.handOff_txPairs (r : TxReport) : (s.handOff r).txPairs = s.txPairs := rfl
@[simp] theorem State.handOff_encResult (r : TxReport) : (s.handOff r).encResult = s.encResult := rfl
@[simp] theorem State.handOff_span (r : TxReport) : (s.handOff r).span = s.span := rfl
@[simp] theorem State.handOff_decOut (r : TxReport) : (s.handOff r).decOut = s.decOut := rfl
@[simp] theorem State.handOff_trace (r : TxReport) : (s.handOff r).trace = s.trace := rfl
@[simp] theorem State.handOff_writeResult (r : TxReport) : (s.handOff r).writeResult = TxReport.result r := rfl
@[simp] theorem State.handOff_readBytes (r : TxReport) : (s.handOff r).readBytes = s.readBytes := rfl
@[simp] theorem State.handOff_held (r : TxReport) : (s.handOff r).held = s.held := rfl
@[simp] theorem State.handOff_handoffs (r : TxReport) : (s.handOff r).handoffs = s.handoffs ++ [⟨s.txPairs, true⟩] := rfl
@[simp] theorem State.handOff_line (r : TxReport) : (s.handOff r).line = s.line ++ TxReport.onLine r s.txSeg := rfl
@[simp] theorem State.handOff_txReports (r : TxReport) : (s.handOff r).txReports = s.txReports.tail := rfl
@[simp] theorem State.handOff_unsent (r : TxReport) : (s.handOff r).unsent = s.unsent := rfl
@[simp] theorem State.handOff_captures (r : TxReport) : (s.handOff r).captures = s.captures := rfl
@[simp] theorem State.handOff_contended (r : TxReport) : (s.handOff r).contended = s.contended := rfl
@[simp] theorem State.handOff_requests (r : TxReport) : (s.handOff r).requests = s.requests := rfl
@[simp] theorem State.handOff_txSeg (r : TxReport) : (s.handOff r).txSeg = s.txSeg := rfl

@[simp] theorem State.delivered_params (m : Nat) (bs : List Byte) (c : List (List Segment)) : (s.delivered m bs c).params = s.params := rfl
@[simp] theorem State.delivered_dec (m : Nat) (bs : List Byte) (c : List (List Segment)) : (s.delivered m bs c).dec = s.dec := rfl
@[simp] theorem State.delivered_txPairs (m : Nat) (bs : List Byte) (c : List (List Segment)) : (s.delivered m bs c).txPairs = s.txPairs := rfl
@[simp] theorem State.delivered_encResult (m : Nat) (bs : List Byte) (c : List (List Segment)) : (s.delivered m bs c).encResult = s.encResult := rfl
@[simp] theorem State.delivered_span (m : Nat) (bs : List Byte) (c : List (List Segment)) : (s.delivered m bs c).span = s.span := rfl
@[simp] theorem State.delivered_decOut (m : Nat) (bs : List Byte) (c : List (List Segment)) : (s.delivered m bs c).decOut = s.decOut := rfl
@[simp] theorem State.delivered_trace (m : Nat) (bs : List Byte) (c : List (List Segment)) : (s.delivered m bs c).trace = s.trace := rfl
@[simp] theorem State.delivered_writeResult (m : Nat) (bs : List Byte) (c : List (List Segment)) : (s.delivered m bs c).writeResult = s.writeResult := rfl
@[simp] theorem State.delivered_readBytes (m : Nat) (bs : List Byte) (c : List (List Segment)) : (s.delivered m bs c).readBytes = (s.kept ++ bs).take m := rfl
@[simp] theorem State.delivered_handoffs (m : Nat) (bs : List Byte) (c : List (List Segment)) : (s.delivered m bs c).handoffs = s.handoffs := rfl
@[simp] theorem State.delivered_line (m : Nat) (bs : List Byte) (c : List (List Segment)) : (s.delivered m bs c).line = s.line := rfl
@[simp] theorem State.delivered_txReports (m : Nat) (bs : List Byte) (c : List (List Segment)) : (s.delivered m bs c).txReports = s.txReports := rfl
@[simp] theorem State.delivered_unsent (m : Nat) (bs : List Byte) (c : List (List Segment)) : (s.delivered m bs c).unsent = s.unsent := rfl
@[simp] theorem State.delivered_captures (m : Nat) (bs : List Byte) (c : List (List Segment)) : (s.delivered m bs c).captures = c := rfl
@[simp] theorem State.delivered_contended (m : Nat) (bs : List Byte) (c : List (List Segment)) : (s.delivered m bs c).contended = s.contended := rfl
@[simp] theorem State.delivered_requests (m : Nat) (bs : List Byte) (c : List (List Segment)) : (s.delivered m bs c).requests = s.requests := rfl
@[simp] theorem State.delivered_txSeg (m : Nat) (bs : List Byte) (c : List (List Segment)) : (s.delivered m bs c).txSeg = s.txSeg := rfl

@[simp] theorem State.timedOut_params (c : List (List Segment)) : (s.timedOut c).params = s.params := rfl
@[simp] theorem State.timedOut_dec (c : List (List Segment)) : (s.timedOut c).dec = s.dec := rfl
@[simp] theorem State.timedOut_txPairs (c : List (List Segment)) : (s.timedOut c).txPairs = s.txPairs := rfl
@[simp] theorem State.timedOut_encResult (c : List (List Segment)) : (s.timedOut c).encResult = s.encResult := rfl
@[simp] theorem State.timedOut_span (c : List (List Segment)) : (s.timedOut c).span = s.span := rfl
@[simp] theorem State.timedOut_decOut (c : List (List Segment)) : (s.timedOut c).decOut = [] := rfl
@[simp] theorem State.timedOut_trace (c : List (List Segment)) : (s.timedOut c).trace = s.trace := rfl
@[simp] theorem State.timedOut_writeResult (c : List (List Segment)) : (s.timedOut c).writeResult = s.writeResult := rfl
@[simp] theorem State.timedOut_readBytes (c : List (List Segment)) : (s.timedOut c).readBytes = [] := rfl
@[simp] theorem State.timedOut_held (c : List (List Segment)) : (s.timedOut c).held = s.held := rfl
@[simp] theorem State.timedOut_handoffs (c : List (List Segment)) : (s.timedOut c).handoffs = s.handoffs := rfl
@[simp] theorem State.timedOut_line (c : List (List Segment)) : (s.timedOut c).line = s.line := rfl
@[simp] theorem State.timedOut_txReports (c : List (List Segment)) : (s.timedOut c).txReports = s.txReports := rfl
@[simp] theorem State.timedOut_unsent (c : List (List Segment)) : (s.timedOut c).unsent = s.unsent := rfl
@[simp] theorem State.timedOut_captures (c : List (List Segment)) : (s.timedOut c).captures = c := rfl
@[simp] theorem State.timedOut_contended (c : List (List Segment)) : (s.timedOut c).contended = s.contended := rfl
@[simp] theorem State.timedOut_requests (c : List (List Segment)) : (s.timedOut c).requests = s.requests := rfl
@[simp] theorem State.timedOut_txSeg (c : List (List Segment)) : (s.timedOut c).txSeg = s.txSeg := rfl

@[simp] theorem State.consume_params (rest : List Byte) : (s.consume rest).params = s.params := rfl
@[simp] theorem State.consume_dec (rest : List Byte) : (s.consume rest).dec = s.dec := rfl
@[simp] theorem State.consume_txPairs (rest : List Byte) : (s.consume rest).txPairs = s.txPairs := rfl
@[simp] theorem State.consume_encResult (rest : List Byte) : (s.consume rest).encResult = s.encResult := rfl
@[simp] theorem State.consume_span (rest : List Byte) : (s.consume rest).span = s.span := rfl
@[simp] theorem State.consume_decOut (rest : List Byte) : (s.consume rest).decOut = s.decOut := rfl
@[simp] theorem State.consume_trace (rest : List Byte) : (s.consume rest).trace = s.trace := rfl
@[simp] theorem State.consume_writeResult (rest : List Byte) : (s.consume rest).writeResult = s.writeResult := rfl
@[simp] theorem State.consume_readBytes (rest : List Byte) : (s.consume rest).readBytes = s.readBytes := rfl
@[simp] theorem State.consume_held (rest : List Byte) : (s.consume rest).held = s.held := rfl
@[simp] theorem State.consume_handoffs (rest : List Byte) : (s.consume rest).handoffs = s.handoffs := rfl
@[simp] theorem State.consume_line (rest : List Byte) : (s.consume rest).line = s.line := rfl
@[simp] theorem State.consume_txReports (rest : List Byte) : (s.consume rest).txReports = s.txReports := rfl
@[simp] theorem State.consume_unsent (rest : List Byte) : (s.consume rest).unsent = s.unsent := rfl
@[simp] theorem State.consume_captures (rest : List Byte) : (s.consume rest).captures = s.captures := rfl
@[simp] theorem State.consume_contended (rest : List Byte) : (s.consume rest).contended = s.contended := rfl
@[simp] theorem State.consume_requests (rest : List Byte) : (s.consume rest).requests = rest := rfl
@[simp] theorem State.consume_txSeg (rest : List Byte) : (s.consume rest).txSeg = s.txSeg := rfl

@[simp] theorem State.encoded_txSeg (pairs : List Pair) : (s.encoded pairs).txSeg = flat pairs := rfl
@[simp] theorem State.overflow_txSeg : s.overflow.txSeg = [] := rfl

theorem State.delivered_held_of_keep (m : Nat) (bs : List Byte) (c : List (List Segment))
    (h : s.params.readExcess = .keep) (hw : ¬ s.dec.Wedged) :
    (s.delivered m bs c).held = (s.held ++ bs).drop m := by
  simp only [State.delivered, State.kept, if_pos (And.intro h hw)]

theorem State.delivered_held_of_wedged (m : Nat) (bs : List Byte) (c : List (List Segment)) (hw : s.dec.Wedged) :
    (s.delivered m bs c).held = s.held := by
  exact if_neg fun h => h.2 hw

theorem State.delivered_held_of_ne (m : Nat) (bs : List Byte) (c : List (List Segment))
    (h : s.params.readExcess ≠ .keep) : (s.delivered m bs c).held = s.held := by
  exact if_neg fun h' => h h'.1

theorem State.kept_of_keep (h : s.params.readExcess = .keep) (hw : ¬ s.dec.Wedged) : s.kept = s.held :=
  if_pos ⟨h, hw⟩

theorem State.kept_of_ne (h : s.params.readExcess ≠ .keep) : s.kept = [] := if_neg fun h' => h h'.1

theorem State.kept_of_wedged (hw : s.dec.Wedged) : s.kept = [] := if_neg fun h => h.2 hw

theorem State.kept_of_held_nil (h : s.held = []) : s.kept = [] := by unfold State.kept; split <;> simp [h]

end Sys2Proof.Machine
end

