-- ==== Sys2Proof/Laws/Decoder.lean ====
section
/-! SUPPORT. What one slot, one segment and one batch of the decoder can do. -/

namespace Sys2Proof.Machine

/- Accumulator bits -/

theorem record_low (acc : BitVec 10) (j : Nat) : record acc j false = acc := by
  simp [record]

theorem record_high (acc : BitVec 10) (j : Nat) (h : j < 10) : record acc j true = acc ||| ones j 1 := by
  have : ∀ j, j < 10 → (BitVec.ofBool true).zeroExtend 10 <<< j = ones j 1 := by decide
  simp [record, ← this j h]

@[simp] theorem ones_zero (p : Nat) : ones p 0 = 0 := by simp [ones]

/-- A run of ones is its first one and the others. -/
theorem ones_succ (p n : Nat) (h : p + n < 10) : ones p 1 ||| ones (p + 1) n = ones p (n + 1) := by
  have : ∀ p, p < 10 → ∀ n, n < 10 - p → ones p 1 ||| ones (p + 1) n = ones p (n + 1) := by decide
  exact this p (by omega) n (by omega)

theorem ones_getLsbD (p n j : Nat) (h : p + n ≤ 10) (hj : j < 10) :
    (ones p n).getLsbD j = (decide (p ≤ j) && decide (j < p + n)) := by
  have : ∀ p, p < 11 → ∀ n, n < 11 - p → ∀ j, j < 10 →
      (ones p n).getLsbD j = (decide (p ≤ j) && decide (j < p + n)) := by decide
  exact this p (by omega) n (by omega) j hj

theorem byteOf_getLsbD (acc : BitVec 10) (m : Nat) (h : m < 8) : (byteOf acc).getLsbD m = acc.getLsbD (m + 1) := by
  have hm : (255#10).getLsbD m = true := by
    have : ∀ m, m < 8 → (255#10).getLsbD m = true := by decide
    exact this m h
  simp only [byteOf, BitVec.truncate_eq_setWidth, BitVec.getLsbD_setWidth, BitVec.getLsbD_and,
    BitVec.getLsbD_ushiftRight, hm, h, decide_true, Bool.true_and, Bool.and_true, Nat.add_comm]

/- One slot -/

theorem bitpos_eq_ten {p : BitVec 4} : p = 10 ↔ p.toNat = 10 := by
  constructor
  · rintro rfl; rfl
  · intro h; exact BitVec.eq_of_toNat_eq h

theorem bitpos_eq_zero {p : BitVec 4} : p = 0 ↔ p.toNat = 0 := by
  constructor
  · rintro rfl; rfl
  · intro h; exact BitVec.eq_of_toNat_eq h

theorem bitpos_succ {p : BitVec 4} (h : p.toNat ≤ 9) : (p + 1).toNat = p.toNat + 1 := by
  simp only [BitVec.toNat_add]
  show (p.toNat + 1) % 16 = _
  omega

theorem fresh_legal : DecoderState.fresh.Legal := by decide

@[simp] theorem fresh_bitpos : DecoderState.fresh.bitpos = 0 := rfl
@[simp] theorem fresh_acc : DecoderState.fresh.acc = 0 := rfl

/-- R13 item 3. -/
theorem legal_acc_zero {st : DecoderState} (h : st.Legal) (hp : st.bitpos = 0) : st.acc = 0 := by
  apply BitVec.eq_of_getLsbD_eq
  intro j hj
  have := h.2.2.2 (by rw [hp]; decide) j hj (by rw [hp]; simp)
  simpa using this

theorem legal_eq_fresh {st : DecoderState} (h : st.Legal) (hp : st.bitpos = 0) : st = DecoderState.fresh := by
  have := legal_acc_zero h hp
  cases st; simp_all [DecoderState.fresh]

/-- R92. -/
theorem slotStep_skip {st : DecoderState} (hp : st.bitpos = 0) : slotStep true st = raise .skippedNonStart st := by
  simp [slotStep, hp]

/-- R93: a slot below 9 is filled. -/
theorem slotStep_fill {st : DecoderState} {l : Level} (hp : st.bitpos.toNat < 9) (hl : l = true → st.bitpos ≠ 0) :
    slotStep l st = .goOn ⟨st.bitpos + 1, record st.acc st.bitpos.toNat l⟩ [] := by
  have h1 : st.bitpos + 1 ≠ 10 := by
    rw [Ne, bitpos_eq_ten, bitpos_succ (by omega)]; omega
  have h2 : ¬ (st.bitpos = 0 ∧ l = true) := fun h => hl h.2 h.1
  simp only [slotStep, h1, h2, false_and, if_false]

/-- R94. -/
theorem slotStep_missing {st : DecoderState} (hp : st.bitpos.toNat = 9) :
    slotStep false st = raise .missingStopBit { st with bitpos := 10 } := by
  have h1 : st.bitpos + 1 = 10 := by rw [bitpos_eq_ten, bitpos_succ (by omega), hp]
  simp only [slotStep, h1, Bool.false_eq_true, and_false, if_false, and_self, if_true]

/-- R95. -/
theorem slotStep_complete {st : DecoderState} (hp : st.bitpos.toNat = 9) :
    slotStep true st = .goOn DecoderState.fresh [.byte (byteOf (record st.acc 9 true))] := by
  have h1 : st.bitpos + 1 = 10 := by rw [bitpos_eq_ten, bitpos_succ (by omega), hp]
  have h2 : st.bitpos ≠ 0 := by rw [Ne, bitpos_eq_zero]; omega
  simp only [slotStep, h1, h2, hp, false_and, if_false, Bool.true_eq_false, and_false, if_true]

/- The slots of one segment -/

/-- Cases L1 of R98. -/
theorem slots_low (n : Nat) (st : DecoderState) (h : st.bitpos.toNat + n ≤ 9) :
    slots false n st = (⟨BitVec.ofNat 4 (st.bitpos.toNat + n), st.acc⟩, []) := by
  induction n generalizing st with
  | zero => simp [slots]
  | succ n ih =>
    rw [slots, slotStep_fill (by omega) (by simp)]
    simp only [record_low]
    rw [ih _ (by show (st.bitpos + 1).toNat + n ≤ 9; rw [bitpos_succ (by omega)]; omega)]
    simp only [bitpos_succ (show st.bitpos.toNat ≤ 9 by omega), List.nil_append]
    rw [show st.bitpos.toNat + 1 + n = st.bitpos.toNat + (n + 1) by omega]

/-- Case L2 of R98. -/
theorem slots_low_missing (n : Nat) (st : DecoderState) (hp : st.bitpos.toNat ≤ 9) (h : 10 ≤ st.bitpos.toNat + n) :
    slots false n st = (⟨10, st.acc⟩, [.event .missingStopBit]) := by
  induction n generalizing st with
  | zero => omega
  | succ n ih =>
    rw [slots]
    by_cases h9 : st.bitpos.toNat = 9
    · rw [slotStep_missing h9]; simp [raise]
    · rw [slotStep_fill (by omega) (by simp)]
      simp only [record_low]
      have hs := bitpos_succ hp
      rw [ih _ (by show (st.bitpos + 1).toNat ≤ 9; omega) (by show 10 ≤ (st.bitpos + 1).toNat + n; omega)]
      rfl

/-- Case H0 of R98. -/
theorem slots_skip (n : Nat) (st : DecoderState) (hp : st.bitpos = 0) :
    slots true (n + 1) st = (st, [.event .skippedNonStart]) := by
  rw [slots, slotStep_skip hp]; simp [raise]

/-- Case H1 of R98. -/
theorem slots_high (n : Nat) (st : DecoderState) (hp : 1 ≤ st.bitpos.toNat) (h : st.bitpos.toNat + n ≤ 9) :
    slots true n st = (⟨BitVec.ofNat 4 (st.bitpos.toNat + n), st.acc ||| ones st.bitpos.toNat n⟩, []) := by
  induction n generalizing st with
  | zero => simp [slots]
  | succ n ih =>
    have hs := bitpos_succ (show st.bitpos.toNat ≤ 9 by omega)
    rw [slots, slotStep_fill (by omega) (by intro _; rw [Ne, bitpos_eq_zero]; omega)]
    simp only
    rw [ih _ (by show 1 ≤ (st.bitpos + 1).toNat; omega) (by show (st.bitpos + 1).toNat + n ≤ 9; omega)]
    simp only [hs, List.nil_append, record_high _ _ (show st.bitpos.toNat < 10 by omega)]
    rw [BitVec.or_assoc, ones_succ _ _ (by omega), show st.bitpos.toNat + 1 + n = st.bitpos.toNat + (n + 1) by omega]

/-- Cases H2 and H3 of R98. -/
theorem slots_high_complete (n : Nat) (st : DecoderState) (hp : 1 ≤ st.bitpos.toNat) (hp' : st.bitpos.toNat ≤ 9)
    (h : 10 ≤ st.bitpos.toNat + n) :
    slots true n st = (DecoderState.fresh,
      .byte (byteOf (st.acc ||| ones st.bitpos.toNat (10 - st.bitpos.toNat))) ::
        if st.bitpos.toNat + n = 10 then [] else [.event .skippedNonStart]) := by
  induction n generalizing st with
  | zero => omega
  | succ n ih =>
    rw [slots]
    by_cases h9 : st.bitpos.toNat = 9
    · rw [slotStep_complete h9, h9, record_high _ _ (by omega)]
      cases n with
      | zero => simp [slots]
      | succ m => simp [slots_skip m DecoderState.fresh fresh_bitpos]; omega
    · have hs := bitpos_succ hp'
      rw [slotStep_fill (by omega) (by intro _; rw [Ne, bitpos_eq_zero]; omega)]
      simp only
      rw [ih _ (by show 1 ≤ (st.bitpos + 1).toNat; omega) (by show (st.bitpos + 1).toNat ≤ 9; omega)
        (by show 10 ≤ (st.bitpos + 1).toNat + n; omega)]
      simp only [hs, List.nil_append, record_high _ _ (show st.bitpos.toNat < 10 by omega)]
      rw [BitVec.or_assoc, show 10 - (st.bitpos.toNat + 1) = 9 - st.bitpos.toNat by omega,
        ones_succ _ _ (by omega), show 9 - st.bitpos.toNat + 1 = 10 - st.bitpos.toNat by omega,
        show st.bitpos.toNat + 1 + n = st.bitpos.toNat + (n + 1) by omega]

/- One segment -/

theorem toNat_ofNat_bitpos {n : Nat} (h : n ≤ 10) : (BitVec.ofNat 4 n).toNat = n := by
  simp only [BitVec.toNat_ofNat]; omega

/-- Filling slots keeps a legal state legal. -/
theorem legal_fill {st : DecoderState} (h : st.Legal) {n : Nat} (hp : 1 ≤ st.bitpos.toNat)
    (hn : st.bitpos.toNat + n ≤ 9) :
    DecoderState.Legal ⟨BitVec.ofNat 4 (st.bitpos.toNat + n), st.acc ||| ones st.bitpos.toNat n⟩ := by
  obtain ⟨-, h0, h9, hz⟩ := h
  have e := toNat_ofNat_bitpos (show st.bitpos.toNat + n ≤ 10 by omega)
  refine ⟨by simp only [e]; omega, ?_, ?_, ?_⟩
  · simp only [BitVec.getLsbD_or, h0, ones_getLsbD _ _ 0 (show st.bitpos.toNat + n ≤ 10 by omega) (by omega)]
    simp; omega
  · simp only [BitVec.getLsbD_or, h9, ones_getLsbD _ _ 9 (show st.bitpos.toNat + n ≤ 10 by omega) (by omega)]
    simp; omega
  · intro _ j hj hle
    simp only [e] at hle
    simp only [BitVec.getLsbD_or, hz (by omega) j hj (by omega),
      ones_getLsbD _ _ j (show st.bitpos.toNat + n ≤ 10 by omega) hj]
    simp; omega

/-- Leaving slots low keeps a legal state legal. -/
theorem legal_advance {st : DecoderState} (h : st.Legal) {n : Nat} (hn : st.bitpos.toNat + n ≤ 10) :
    DecoderState.Legal ⟨BitVec.ofNat 4 (st.bitpos.toNat + n), st.acc⟩ := by
  obtain ⟨-, h0, h9, hz⟩ := h
  have e := toNat_ofNat_bitpos hn
  refine ⟨by simp only [e]; omega, h0, h9, ?_⟩
  intro hlt j hj hle
  simp only [e] at hlt hle
  exact hz (by omega) j hj (by omega)

/-- R98: everything one segment can do to a legal state. -/
theorem segmentStep_cases (bp : Nat) (seg : Segment) (st : DecoderState) (h : st.Legal) :
    let p := st.bitpos.toNat
    let n := spanOf bp seg st
    (p = 10 ∧ segmentStep bp seg st = (st, [])) ∨
    (p ≤ 9 ∧ n = 0 ∧ seg.level = false ∧ segmentStep bp seg st = (st, [])) ∨
    (p = 0 ∧ 1 ≤ n ∧ seg.level = true ∧ segmentStep bp seg st = (st, [.event .skippedNonStart])) ∨
    (1 ≤ p ∧ 1 ≤ n ∧ p + n ≤ 9 ∧ seg.level = true ∧
      segmentStep bp seg st = (⟨BitVec.ofNat 4 (p + n), st.acc ||| ones p n⟩, [])) ∨
    (1 ≤ p ∧ p ≤ 9 ∧ 10 ≤ p + n ∧ seg.level = true ∧
      segmentStep bp seg st = (DecoderState.fresh, .byte (byteOf (st.acc ||| ones p (10 - p))) ::
        if p + n = 10 then [] else [.event .skippedNonStart])) ∨
    (1 ≤ n ∧ p + n ≤ 9 ∧ seg.level = false ∧ segmentStep bp seg st = (⟨BitVec.ofNat 4 (p + n), st.acc⟩, [])) ∨
    (p ≤ 9 ∧ 10 ≤ p + n ∧ seg.level = false ∧
      segmentStep bp seg st = (⟨10, st.acc⟩, [.event .missingStopBit])) := by
  intro p n
  have hp : p ≤ 10 := h.1
  by_cases hw : st.bitpos = 10
  · exact .inl ⟨bitpos_eq_ten.1 hw, by simp only [segmentStep, hw, if_true]⟩
  have hw' : p ≠ 10 := fun e => hw (bitpos_eq_ten.2 e)
  have hs : segmentStep bp seg st = slots seg.level n st := by simp only [segmentStep, hw, if_false, n]
  right
  cases hl : seg.level with
  | true =>
    rw [hl] at hs
    have hn : 1 ≤ n := by
      simp only [n, spanOf, hl, and_true]; split <;> omega
    right
    by_cases h0 : p = 0
    · left
      refine ⟨h0, hn, rfl, ?_⟩
      rw [hs, show n = (n - 1) + 1 by omega, slots_skip _ _ (bitpos_eq_zero.2 h0)]
    · right
      by_cases h9 : p + n ≤ 9
      · left; exact ⟨by omega, hn, h9, rfl, by rw [hs, slots_high n st (by omega) h9]⟩
      · right; left
        exact ⟨by omega, by omega, by omega, rfl, by rw [hs, slots_high_complete n st (by omega) (by omega) (by omega)]⟩
  | false =>
    rw [hl] at hs
    by_cases h0 : n = 0
    · left; exact ⟨by omega, h0, rfl, by rw [hs, h0, slots]⟩
    · right; right; right; right
      by_cases h9 : p + n ≤ 9
      · left; exact ⟨by omega, h9, rfl, by rw [hs, slots_low n st h9]⟩
      · right; exact ⟨by omega, by omega, rfl, by rw [hs, slots_low_missing n st (by omega) (by omega)]⟩

/-- R13: a segment keeps the DecoderState legal. -/
theorem segmentStep_legal (bp : Nat) (seg : Segment) {st : DecoderState} (h : st.Legal) :
    (segmentStep bp seg st).1.Legal := by
  rcases segmentStep_cases bp seg st h with
    ⟨-, e⟩ | ⟨-, -, -, e⟩ | ⟨-, -, -, e⟩ | ⟨hp, -, hn, -, e⟩ | ⟨-, -, -, -, e⟩ | ⟨-, hn, -, e⟩ | ⟨hp, hn, -, e⟩ <;>
    rw [e]
  · exact h
  · exact h
  · exact h
  · exact legal_fill h hp hn
  · exact fresh_legal
  · exact legal_advance h (by omega)
  · have := legal_advance h (n := 10 - st.bitpos.toNat) (by omega)
    rwa [show st.bitpos.toNat + (10 - st.bitpos.toNat) = 10 by omega] at this

/-- R99: a segment yields at most one byte. -/
theorem segmentStep_rxBytes_length (bp : Nat) (seg : Segment) {st : DecoderState} (h : st.Legal) :
    (rxBytes (segmentStep bp seg st).2).length ≤ 1 := by
  rcases segmentStep_cases bp seg st h with
    ⟨-, e⟩ | ⟨-, -, -, e⟩ | ⟨-, -, -, e⟩ | ⟨-, -, -, -, e⟩ | ⟨-, -, -, -, e⟩ | ⟨-, -, -, e⟩ | ⟨-, -, -, e⟩ <;>
    rw [e]
  any_goals exact Nat.zero_le 1
  dsimp only; split <;> simp [rxBytes, Item.byte?]

/- DEC.SEG and DEC.BATCH with their refusals -/

/-- DEC.SEG answers exactly on legal operands and a legal state. -/
theorem decodeSegment_eq_ok {p : Params} {bp : Nat} {seg : Segment} {st : DecoderState} {r : DecoderState × List Item} :
    decodeSegment p bp seg st = .ok r ↔
      BpLegal p bp ∧ SegmentLegal p seg ∧ st.Legal ∧ r = segmentStep bp seg st := by
  unfold decodeSegment
  by_cases h1 : BpLegal p bp
  · by_cases h2 : SegmentLegal p seg
    · by_cases h3 : st.Legal
      · rw [if_neg (not_not.2 h1), if_neg (not_not.2 h2), if_neg (not_not.2 h3)]
        exact ⟨fun h => ⟨h1, h2, h3, (Except.ok.inj h).symm⟩, fun h => congrArg _ h.2.2.2.symm⟩
      · rw [if_neg (not_not.2 h1), if_neg (not_not.2 h2), if_pos h3]
        exact ⟨nofun, fun h => absurd h.2.2.1 h3⟩
    · rw [if_neg (not_not.2 h1), if_pos h2]
      exact ⟨nofun, fun h => absurd h.2.1 h2⟩
  · rw [if_pos h1]
    exact ⟨nofun, fun h => absurd h.1 h1⟩

theorem decodeSegment_ok {p : Params} {bp : Nat} {seg : Segment} {st : DecoderState} (h1 : BpLegal p bp)
    (h2 : SegmentLegal p seg) (h3 : st.Legal) : decodeSegment p bp seg st = .ok (segmentStep bp seg st) :=
  decodeSegment_eq_ok.2 ⟨h1, h2, h3, rfl⟩

/-- One segment in front of others. -/
theorem decodeAll_cons_eq_ok {p : Params} {bp : Nat} {seg : Segment} {segs : List Segment} {st : DecoderState}
    {r : DecoderState × List Item} :
    decodeAll p bp (seg :: segs) st = .ok r ↔
      ∃ a, decodeSegment p bp seg st = .ok a ∧ ∃ b, decodeAll p bp segs a.1 = .ok b ∧ r = (b.1, a.2 ++ b.2) := by
  rw [decodeAll]
  cases decodeSegment p bp seg st with
  | error e => simp
  | ok a =>
    cases h : decodeAll p bp segs a.1 with
    | error e => simp [h]
    | ok b =>
      simp only [h, Except.ok.injEq, exists_eq_left']
      exact eq_comm

/-- Segments in front of others (R101). -/
theorem decodeAll_append_eq_ok {p : Params} {bp : Nat} {x y : List Segment} {st : DecoderState}
    {r : DecoderState × List Item} :
    decodeAll p bp (x ++ y) st = .ok r ↔
      ∃ a, decodeAll p bp x st = .ok a ∧ ∃ b, decodeAll p bp y a.1 = .ok b ∧ r = (b.1, a.2 ++ b.2) := by
  induction x generalizing st r with
  | nil =>
    exact ⟨fun h => ⟨_, rfl, r, h, rfl⟩, by rintro ⟨_, ⟨⟩, b, hb, rfl⟩; exact hb⟩
  | cons seg segs ih =>
    simp only [List.cons_append, decodeAll_cons_eq_ok, ih]
    constructor
    · rintro ⟨a, ha, b, ⟨c, hc, d, hd, rfl⟩, rfl⟩
      exact ⟨_, ⟨a, ha, c, hc, rfl⟩, d, hd, by simp⟩
    · rintro ⟨_, ⟨a, ha, c, hc, rfl⟩, d, hd, rfl⟩
      exact ⟨a, ha, _, ⟨c, hc, d, hd, rfl⟩, by simp⟩

/-- R96: a WEDGED channel takes no notice of a segment. -/
theorem segmentStep_wedged (bp : Nat) (seg : Segment) {st : DecoderState} (hw : st.Wedged) :
    segmentStep bp seg st = (st, []) := if_pos hw

/-- R96: nor of a batch. -/
theorem decodeAll_wedged {p : Params} {bp : Nat} {segs : List Segment} {st : DecoderState}
    {r : DecoderState × List Item} (h : decodeAll p bp segs st = .ok r) (hw : st.Wedged) : r = (st, []) := by
  induction segs generalizing r with
  | nil => cases h; rfl
  | cons seg segs ih =>
    obtain ⟨a, ha, b, hb, rfl⟩ := decodeAll_cons_eq_ok.1 h
    obtain ⟨-, -, -, rfl⟩ := decodeSegment_eq_ok.1 ha
    rw [segmentStep_wedged bp seg hw] at hb ⊢
    rw [ih hb]; rfl

/-- On legal operands from a legal state every batch is decoded to its end, in a legal state (R127). -/
theorem decodeAll_ok {p : Params} {bp : Nat} (h1 : BpLegal p bp) (segs : List Segment)
    (h2 : ∀ seg ∈ segs, SegmentLegal p seg) (st : DecoderState) (h3 : st.Legal) :
    ∃ r, decodeAll p bp segs st = .ok r ∧ r.1.Legal := by
  induction segs generalizing st with
  | nil => exact ⟨_, rfl, h3⟩
  | cons seg segs ih =>
    have ha := decodeSegment_ok h1 (h2 seg (by simp)) h3
    obtain ⟨b, hb, hl⟩ := ih (fun s hs => h2 s (by simp [hs])) _ (segmentStep_legal bp seg h3)
    exact ⟨_, decodeAll_cons_eq_ok.2 ⟨_, ha, b, hb, rfl⟩, hl⟩

/-- A batch that is decoded keeps a legal state legal. -/
theorem decodeAll_legal {p : Params} {bp : Nat} {segs : List Segment} {st : DecoderState}
    {r : DecoderState × List Item} (h : decodeAll p bp segs st = .ok r) (hl : st.Legal) : r.1.Legal := by
  induction segs generalizing st r with
  | nil => cases h; exact hl
  | cons seg segs ih =>
    obtain ⟨a, ha, b, hb, rfl⟩ := decodeAll_cons_eq_ok.1 h
    obtain ⟨-, -, -, rfl⟩ := decodeSegment_eq_ok.1 ha
    exact ih (r := b) hb (segmentStep_legal bp seg hl)

theorem decodeBatch_eq_ok {p : Params} {bp : Nat} {segs : List Segment} {st : DecoderState}
    {r : DecoderState × List Item} :
    decodeBatch p bp segs st = .ok r ↔ BpLegal p bp ∧ decodeAll p bp segs st = .ok r := by
  unfold decodeBatch
  by_cases h : BpLegal p bp
  · rw [if_neg (not_not.2 h)]; exact ⟨fun e => ⟨h, e⟩, And.right⟩
  · rw [if_pos h]; exact ⟨nofun, fun e => absurd e.1 h⟩

end Sys2Proof.Machine
end

