-- ==== Sys2Proof/Laws/Encoder.lean ====
section
/-! SUPPORT. The shape of the encoder's output, and sequences of segments and pairs. -/

namespace Sys2Proof.Machine

@[simp] theorem flat_nil : flat [] = [] := rfl

@[simp] theorem flat_append (x y : List Pair) : flat (x ++ y) = flat x ++ flat y := by simp [flat]

@[simp] theorem inv_nil : inv [] = [] := rfl

@[simp] theorem inv_append (x y : List Segment) : inv (x ++ y) = inv x ++ inv y := by simp [inv]

@[simp] theorem encodeBytes_nil (bp : Nat) : encodeBytes [] bp = [] := rfl

@[simp] theorem encodeBytes_cons (b : Byte) (bs : List Byte) (bp : Nat) :
    encodeBytes (b :: bs) bp = encodeByte b bp ++ encodeBytes bs bp := by simp [encodeBytes]

@[simp] theorem encodeBytes_append (x y : List Byte) (bp : Nat) :
    encodeBytes (x ++ y) bp = encodeBytes x bp ++ encodeBytes y bp := by simp [encodeBytes]

/-- R70: the ten segments of a byte, segment `j` for frame bit `j`. -/
theorem flat_encodeByte (b : Byte) (bp : Nat) :
    flat (encodeByte b bp) = (List.range 10).map (txSegment (frameOf b) bp) := rfl

@[simp] theorem encodeByte_length (b : Byte) (bp : Nat) : (encodeByte b bp).length = 5 := rfl

@[simp] theorem flat_encodeByte_length (b : Byte) (bp : Nat) : (flat (encodeByte b bp)).length = 10 := rfl

@[simp] theorem encodeBytes_length (bs : List Byte) (bp : Nat) : (encodeBytes bs bp).length = 5 * bs.length := by
  induction bs with
  | nil => rfl
  | cons b bs ih => simp [ih]; omega

theorem flat_encodeByte_duration (b : Byte) (bp : Nat) : ∀ seg ∈ flat (encodeByte b bp), seg.duration = bp := by
  rw [flat_encodeByte]
  simp only [List.mem_map]
  rintro _ ⟨j, -, rfl⟩; rfl

/-- R73: every duration the encoder writes is the bit period. -/
theorem flat_encodeBytes_duration (bs : List Byte) (bp : Nat) :
    ∀ seg ∈ flat (encodeBytes bs bp), seg.duration = bp := by
  induction bs with
  | nil => simp
  | cons b bs ih =>
    simp only [encodeBytes_cons, flat_append, List.mem_append]
    rintro seg (h | h)
    · exact flat_encodeByte_duration b bp seg h
    · exact ih seg h

/-- What ENC.BUF does to the state, on legal operands (R71). -/
theorem encodeBuffer_cases (bytes : List Byte) (bp cap : Nat) (s : State) :
    (cap < 10 * bytes.length ∧ encodeBuffer bytes bp cap s = s.overflow) ∨
    (10 * bytes.length ≤ cap ∧ encodeBuffer bytes bp cap s = s.encoded (encodeBytes bytes bp)) := by
  unfold encodeBuffer
  split
  · exact .inl ⟨by omega, rfl⟩
  · exact .inr ⟨by omega, rfl⟩

end Sys2Proof.Machine
end

