-- ==== Sys2Proof/Laws/PerInstr.lean ====
section
/-! SUPPORT. The family of statements made of every operation as syntax. -/

namespace Sys2Proof.Laws.TagByte

/-- The byte form of an operation begins with its tag of opcode_table.json (D22), which the table's mask 0x7 leaves as
it is: bits 7..3 are zero. -/
def Statement (i : Instr) : Prop := (encode i).head? = some i.tag ∧ i.tag &&& 0x7 = i.tag

/-- Every tag lies in bits 2..0 of its byte. -/
theorem tag_masked (i : Instr) : i.tag &&& 0x7 = i.tag := by cases i <;> simp [Instr.tag]

theorem encByte (b : Byte) (bp : Nat) : Statement (.encByte b bp) := ⟨rfl, tag_masked _⟩
theorem encBuf (bytes : List Byte) (bp cap : Nat) : Statement (.encBuf bytes bp cap) := ⟨rfl, tag_masked _⟩
theorem quant (d bp : Nat) : Statement (.quant d bp) := ⟨rfl, tag_masked _⟩
theorem decSeg (seg : Segment) (bp : Nat) : Statement (.decSeg seg bp) := ⟨rfl, tag_masked _⟩
theorem decBatch (segs : List Segment) (bp : Nat) : Statement (.decBatch segs bp) := ⟨rfl, tag_masked _⟩
theorem decInit : Statement .decInit := ⟨rfl, tag_masked _⟩
theorem write (bytes : List Byte) (bp cap : Nat) : Statement (.write bytes bp cap) := ⟨rfl, tag_masked _⟩
theorem read (maxBytes timeout bp : Nat) : Statement (.read maxBytes timeout bp) := ⟨rfl, tag_masked _⟩

end Sys2Proof.Laws.TagByte
end

