-- ==== Sys2Proof/Laws/System.lean ====
section
/-! SUPPORT. What the receives of a READ can do, and what every operation can do: one inversion lemma each. -/

namespace Sys2Proof.Machine

@[simp] theorem rxBytes_nil : rxBytes [] = [] := rfl

@[simp] theorem rxBytes_append (x y : List Item) : rxBytes (x ++ y) = rxBytes x ++ rxBytes y := by simp [rxBytes]

theorem length_rxBytes_append (x y : List Item) :
    (rxBytes (x ++ y)).length = (rxBytes x).length + (rxBytes y).length := by simp

@[simp] theorem events_nil : events [] = [] := rfl

@[simp] theorem events_append (x y : List Item) : events (x ++ y) = events x ++ events y := by simp [events]

/-- Stopping early is DEC.BATCH of the segments taken; no more bytes than there is room for; segments are left only
where the room is used up; and no fewer segments use it up. -/
theorem decodeUntil_ok {p : Params} {bp : Nat} {segs : List Segment} {room : Nat} {st : DecoderState}
    {r : DecoderState × List Item × List Segment} (h : decodeUntil p bp segs room st = .ok r) :
    ∃ used, segs = used ++ r.2.2 ∧ decodeAll p bp used st = .ok (r.1, r.2.1) ∧ (rxBytes r.2.1).length ≤ room ∧
      (r.2.2 ≠ [] → (rxBytes r.2.1).length = room) ∧
      ∀ first, first <+: used → first ≠ used → ∀ a, decodeAll p bp first st = .ok a → (rxBytes a.2).length < room := by
  induction segs generalizing room st r with
  | nil =>
    cases h
    exact ⟨[], rfl, rfl, Nat.zero_le _, fun h => absurd rfl h, fun _ hp hne => absurd (List.prefix_nil.1 hp) hne⟩
  | cons seg segs ih =>
    cases room with
    | zero => cases h; exact ⟨[], rfl, rfl, Nat.le_refl _, fun _ => rfl, fun _ hp hne => absurd (List.prefix_nil.1 hp) hne⟩
    | succ room =>
      rw [decodeUntil] at h
      cases ha : decodeSegment p bp seg st with
      | error e => rw [ha] at h; cases h
      | ok a =>
        rw [ha] at h
        dsimp only at h
        cases hb : decodeUntil p bp segs (room + 1 - (rxBytes a.2).length) a.1 with
        | error e => rw [hb] at h; cases h
        | ok b =>
          obtain ⟨st', items, left⟩ := b
          rw [hb] at h
          cases h
          obtain ⟨used, e, hd, hle, hleft, hmin⟩ := ih hb
          dsimp only at hle hleft
          have h1 : (rxBytes a.2).length ≤ 1 := by
            obtain ⟨-, -, hl, rfl⟩ := decodeSegment_eq_ok.1 ha
            exact segmentStep_rxBytes_length bp seg hl
          refine ⟨seg :: used, by simp [e], decodeAll_cons_eq_ok.2 ⟨a, ha, _, hd, rfl⟩, ?_, ?_, ?_⟩
          · rw [length_rxBytes_append]; omega
          · intro hne; have := hleft hne; rw [length_rxBytes_append]; omega
          · intro first hp hne c hc
            rcases List.prefix_cons_iff.1 hp with rfl | ⟨first, rfl, hp'⟩
            · cases hc; exact Nat.succ_pos _
            · obtain ⟨a', ha', d, hd', rfl⟩ := decodeAll_cons_eq_ok.1 hc
              rw [ha] at ha'; cases ha'
              have := hmin first hp' (fun e => hne (by rw [e])) d hd'
              rw [length_rxBytes_append]; omega

/-- Stopping early completes where DEC.BATCH would. -/
theorem decodeUntil_completes {p : Params} {bp : Nat} (h1 : BpLegal p bp) (segs : List Segment)
    (h2 : ∀ seg ∈ segs, SegmentLegal p seg) (room : Nat) (st : DecoderState) (h3 : st.Legal) :
    ∃ r, decodeUntil p bp segs room st = .ok r := by
  induction segs generalizing room st with
  | nil => exact ⟨_, rfl⟩
  | cons seg segs ih =>
    cases room with
    | zero => exact ⟨_, rfl⟩
    | succ room =>
      have ha := decodeSegment_ok h1 (h2 seg (by simp)) h3
      obtain ⟨b, hb⟩ := ih (fun s hs => h2 s (by simp [hs])) (room + 1 - (rxBytes (segmentStep bp seg st).2).length)
        _ (segmentStep_legal bp seg h3)
      rw [decodeUntil, ha]
      dsimp only
      rw [hb]
      exact ⟨_, rfl⟩

/-- One batch of a READ: the segments taken are decoded as by DEC.BATCH, the others are left; where decoding does not
stop early, none are. -/
theorem readBatch_ok {p : Params} {bp room : Nat} {batch : List Segment} {st : DecoderState}
    {r : DecoderState × List Item × List Segment} (h : readBatch p bp room batch st = .ok r) :
    BpLegal p bp ∧ ∃ used, batch = used ++ r.2.2 ∧ decodeAll p bp used st = .ok (r.1, r.2.1) ∧
      (p.readExcess ≠ .stopEarly → r.2.2 = []) ∧
      (p.readExcess = .stopEarly → (rxBytes r.2.1).length ≤ room ∧
        (r.2.2 ≠ [] → (rxBytes r.2.1).length = room) ∧
        ∀ first, first <+: used → first ≠ used → ∀ a, decodeAll p bp first st = .ok a → (rxBytes a.2).length < room) := by
  have whole : ∀ h : (match decodeBatch p bp batch st with
      | .error r => .error r
      | .ok (st', items) => .ok (st', items, [])) = (.ok r : Except Refusal (DecoderState × List Item × List Segment)),
      BpLegal p bp ∧ decodeAll p bp batch st = .ok (r.1, r.2.1) ∧ r.2.2 = [] := by
    intro h
    cases hd : decodeBatch p bp batch st with
    | error e => rw [hd] at h; cases h
    | ok a => rw [hd] at h; cases h; exact ⟨(decodeBatch_eq_ok.1 hd).1, (decodeBatch_eq_ok.1 hd).2, rfl⟩
  unfold readBatch at h
  split at h
  · rename_i hx
    by_cases hb : BpLegal p bp
    · rw [if_neg (not_not.2 hb)] at h
      obtain ⟨used, e, hd, hstop⟩ := decodeUntil_ok h
      exact ⟨hb, used, e, hd, fun hn => absurd hx hn, fun _ => hstop⟩
    · rw [if_pos hb] at h; cases h
  · rename_i hx
    obtain ⟨hb, hd, hl⟩ := whole h
    exact ⟨hb, batch, by simp [hl], hd, fun _ => hl, by simp [hx]⟩
  · rename_i hx
    obtain ⟨hb, hd, hl⟩ := whole h
    exact ⟨hb, batch, by simp [hl], hd, fun _ => hl, by simp [hx]⟩

/-- One batch of a READ completes where DEC.BATCH would. -/
theorem readBatch_completes {p : Params} {bp : Nat} (h1 : BpLegal p bp) (batch : List Segment)
    (h2 : ∀ seg ∈ batch, SegmentLegal p seg) (room : Nat) (st : DecoderState) (h3 : st.Legal) :
    ∃ r, readBatch p bp room batch st = .ok r := by
  obtain ⟨a, ha, -⟩ := decodeAll_ok h1 batch h2 st h3
  have hd := decodeBatch_eq_ok.2 ⟨h1, ha⟩
  unfold readBatch
  split
  · rw [if_neg (not_not.2 h1)]; exact decodeUntil_completes h1 batch h2 room st h3
  · rw [hd]; exact ⟨_, rfl⟩
  · rw [hd]; exact ⟨_, rfl⟩

theorem mem_unread {left batch : List Segment} {rest : List (List Segment)} (h : batch ∈ unread left rest) :
    batch = left ∨ batch ∈ rest := by
  cases left with
  | nil => exact .inr h
  | cons a as => simpa [unread] using h

/-- The receives of a READ: what they decode is DEC.BATCH of some segments; bytes beyond the room come only where
decoding does not stop early; what is still to come is made of segments that were there. -/
theorem readBatches_ok {p : Params} {bp : Nat} {captures : List (List Segment)} {room : Nat} {st : DecoderState}
    {r : DecoderState × List Item × List (List Segment)} (h : readBatches p bp captures room st = .ok r) :
    (∃ used, decodeAll p bp used st = .ok (r.1, r.2.1)) ∧
      (p.readExcess = .stopEarly → (rxBytes r.2.1).length ≤ room) ∧
      ∀ batch ∈ r.2.2, ∀ seg ∈ batch, ∃ b ∈ captures, seg ∈ b := by
  induction captures generalizing room st r with
  | nil => cases h; exact ⟨⟨[], rfl⟩, fun _ => Nat.zero_le _, nofun⟩
  | cons batch rest ih =>
    cases batch with
    | nil =>
      cases h
      exact ⟨⟨[], rfl⟩, fun _ => Nat.zero_le _, fun b hb seg hs => ⟨b, by simp [hb], hs⟩⟩
    | cons seg segs =>
      rw [readBatches] at h
      cases ha : readBatch p bp room (seg :: segs) st with
      | error e => rw [ha] at h; cases h
      | ok a =>
        obtain ⟨st₁, items₁, left₁⟩ := a
        rw [ha] at h
        dsimp only at h
        obtain ⟨-, used, e, hd, -, hstop⟩ := readBatch_ok ha
        split at h
        · cases h
          refine ⟨⟨used, hd⟩, fun hx => (hstop hx).1, fun b hb sg hs => ?_⟩
          rcases mem_unread hb with rfl | hb
          · exact ⟨seg :: segs, by simp, by rw [e]; simp [hs]⟩
          · exact ⟨b, by simp [hb], hs⟩
        · cases hb : readBatches p bp rest (room - (rxBytes items₁).length) st₁ with
          | error e => rw [hb] at h; cases h
          | ok b =>
            obtain ⟨st', items, left⟩ := b
            rw [hb] at h
            cases h
            obtain ⟨⟨used', hd'⟩, hle, hm⟩ := ih hb
            refine ⟨⟨used ++ used', decodeAll_append_eq_ok.2 ⟨_, hd, _, hd', rfl⟩⟩, fun hx => ?_, fun c hc sg hs => ?_⟩
            · have h1 := (hstop hx).1
              have h2 := hle hx
              dsimp only at h1 h2
              rw [length_rxBytes_append]; omega
            · obtain ⟨c', hc', hs'⟩ := hm c hc sg hs
              exact ⟨c', by simp [hc'], hs'⟩

/-- Taking several batches where decoding does not stop early: batches are taken whole, in order, until the room is
used up or a receive times out; and no fewer batches use it up. -/
theorem readBatches_several {p : Params} {bp : Nat} (hs : p.readBatches = .several) (hx : p.readExcess ≠ .stopEarly)
    {captures : List (List Segment)} {room : Nat} {st : DecoderState} {r : DecoderState × List Item × List (List Segment)}
    (h : readBatches p bp captures room st = .ok r) :
    ∃ taken, (∀ batch ∈ taken, batch ≠ []) ∧ decodeAll p bp taken.flatten st = .ok (r.1, r.2.1) ∧
      ((taken ≠ [] ∧ captures = taken ++ r.2.2 ∧ room ≤ (rxBytes r.2.1).length) ∨
       ((captures = taken ++ [] :: r.2.2 ∨ captures = taken ∧ r.2.2 = []) ∧
          (taken ≠ [] → (rxBytes r.2.1).length < room))) ∧
      ∀ first, first ≠ [] → first <+: taken → first ≠ taken →
        ∀ a, decodeAll p bp first.flatten st = .ok a → (rxBytes a.2).length < room := by
  induction captures generalizing room st r with
  | nil =>
    cases h
    exact ⟨[], nofun, rfl, .inr ⟨.inr ⟨rfl, rfl⟩, fun h => absurd rfl h⟩, fun _ _ hp hne => absurd (List.prefix_nil.1 hp) hne⟩
  | cons batch rest ih =>
    cases batch with
    | nil =>
      cases h
      exact ⟨[], nofun, rfl, .inr ⟨.inl rfl, fun h => absurd rfl h⟩, fun _ _ hp hne => absurd (List.prefix_nil.1 hp) hne⟩
    | cons seg segs =>
      rw [readBatches] at h
      cases ha : readBatch p bp room (seg :: segs) st with
      | error e => rw [ha] at h; cases h
      | ok a =>
        obtain ⟨st₁, items₁, left₁⟩ := a
        rw [ha] at h
        dsimp only at h
        obtain ⟨-, used, e, hd, hleft, -⟩ := readBatch_ok ha
        have hleft := hleft hx
        dsimp only at hleft hd e
        rw [hleft, List.append_nil] at e
        subst e
        split at h
        · rename_i hend
          cases h
          have hroom : room - (rxBytes items₁).length = 0 := hend.resolve_left (by rw [hs]; decide)
          rw [hleft]
          refine ⟨[seg :: segs], by simp, by simpa using hd, .inl ⟨by simp, rfl, by dsimp only; omega⟩, fun first h1 hp hne => ?_⟩
          rcases List.prefix_cons_iff.1 hp with rfl | ⟨first, rfl, hp'⟩
          · exact absurd rfl h1
          · exact absurd (congrArg _ (List.prefix_nil.1 hp')) hne
        · rename_i hmore
          have hmore : room - (rxBytes items₁).length ≠ 0 := fun e => hmore (.inr e)
          cases hb : readBatches p bp rest (room - (rxBytes items₁).length) st₁ with
          | error e => rw [hb] at h; cases h
          | ok b =>
            obtain ⟨st', items, left⟩ := b
            rw [hb] at h
            cases h
            obtain ⟨taken, hne, hd', hend, hmin⟩ := ih hb
            refine ⟨(seg :: segs) :: taken, ?_, ?_, ?_, ?_⟩
            · intro c hc; rcases List.mem_cons.1 hc with rfl | hc
              · simp
              · exact hne c hc
            · rw [List.flatten_cons]
              exact decodeAll_append_eq_ok.2 ⟨_, hd, _, hd', rfl⟩
            · rcases hend with ⟨-, e, hle⟩ | ⟨e, hlt⟩
              · left
                refine ⟨by simp, by simp [e], ?_⟩
                dsimp only at hle ⊢
                rw [length_rxBytes_append]; omega
              · right
                refine ⟨?_, fun _ => ?_⟩
                · rcases e with e | ⟨e, e'⟩
                  · exact .inl (by simp [e])
                  · exact .inr ⟨by rw [e], e'⟩
                · dsimp only at hlt ⊢
                  rw [length_rxBytes_append]
                  by_cases ht : taken = []
                  · rw [ht] at hd'; cases hd'; simp; omega
                  · have := hlt ht; omega
            · intro first h1 hp hne' c hc
              rcases List.prefix_cons_iff.1 hp with rfl | ⟨first, rfl, hp'⟩
              · exact absurd rfl h1
              · rw [List.flatten_cons] at hc
                obtain ⟨a', ha', d, hd'', rfl⟩ := decodeAll_append_eq_ok.1 hc
                rw [hd] at ha'; cases ha'
                rw [length_rxBytes_append]
                by_cases hf : first = []
                · rw [hf] at hd''; cases hd''; simp; omega
                · have := hmin first hf hp' (fun e => hne' (by rw [e])) d hd''
                  dsimp only; omega

/-- Taking several batches where decoding stops early: the segments decoded are the first ones of what is to come, until
the room is used up or a receive times out; what is left of the last batch taken goes back to the front; and no fewer
segments use the room up. -/
theorem readBatches_stopping {p : Params} {bp : Nat} (hs : p.readBatches = .several) (hx : p.readExcess = .stopEarly)
    {captures : List (List Segment)} {room : Nat} {st : DecoderState} {r : DecoderState × List Item × List (List Segment)}
    (h : readBatches p bp captures room st = .ok r) :
    ∃ taken part, (∀ batch ∈ taken, batch ≠ []) ∧
      decodeAll p bp (taken.flatten ++ part) st = .ok (r.1, r.2.1) ∧
      (((rxBytes r.2.1).length = room ∧ ∃ left rest, part ++ left ≠ [] ∧
          captures = taken ++ (part ++ left) :: rest ∧ r.2.2 = unread left rest) ∨
       (part = [] ∧ (captures = taken ++ [] :: r.2.2 ∨ captures = taken ∧ r.2.2 = []) ∧
          (taken ≠ [] → (rxBytes r.2.1).length < room))) ∧
      ∀ first, first <+: taken.flatten ++ part → first ≠ taken.flatten ++ part →
        ∀ a, decodeAll p bp first st = .ok a → (rxBytes a.2).length < room := by
  induction captures generalizing room st r with
  | nil =>
    cases h
    exact ⟨[], [], nofun, rfl, .inr ⟨rfl, .inr ⟨rfl, rfl⟩, fun h => absurd rfl h⟩,
      fun _ hp hne => absurd (List.prefix_nil.1 hp) hne⟩
  | cons batch rest ih =>
    cases batch with
    | nil =>
      cases h
      exact ⟨[], [], nofun, rfl, .inr ⟨rfl, .inl rfl, fun h => absurd rfl h⟩,
        fun _ hp hne => absurd (List.prefix_nil.1 hp) hne⟩
    | cons seg segs =>
      rw [readBatches] at h
      cases ha : readBatch p bp room (seg :: segs) st with
      | error e => rw [ha] at h; cases h
      | ok a =>
        obtain ⟨st₁, items₁, left₁⟩ := a
        rw [ha] at h
        dsimp only at h
        obtain ⟨-, used, e, hd, -, hstop⟩ := readBatch_ok ha
        obtain ⟨hle, hleft, hfew⟩ := hstop hx
        dsimp only at hd e hle hleft hfew
        split at h
        · rename_i hend
          cases h
          have hroom : room - (rxBytes items₁).length = 0 := hend.resolve_left (by rw [hs]; decide)
          exact ⟨[], used, nofun, hd, .inl ⟨by dsimp only; omega, left₁, rest, by simp [← e], by simp [e], rfl⟩, hfew⟩
        · rename_i hmore
          have hmore : room - (rxBytes items₁).length ≠ 0 := fun e => hmore (.inr e)
          have hl : left₁ = [] := by
            by_contra hne; have := hleft hne; omega
          rw [hl, List.append_nil] at e
          subst e
          cases hb : readBatches p bp rest (room - (rxBytes items₁).length) st₁ with
          | error e => rw [hb] at h; cases h
          | ok b =>
            obtain ⟨st', items, left⟩ := b
            rw [hb] at h
            cases h
            obtain ⟨taken, part, hne, hd', hend, hmin⟩ := ih hb
            refine ⟨(seg :: segs) :: taken, part, ?_, ?_, ?_, ?_⟩
            · intro c hc; rcases List.mem_cons.1 hc with rfl | hc
              · simp
              · exact hne c hc
            · rw [List.flatten_cons, List.append_assoc]
              exact decodeAll_append_eq_ok.2 ⟨_, hd, _, hd', rfl⟩
            · rcases hend with ⟨hl, left', rest', h1, h2, h3⟩ | ⟨h1, e, hlt⟩
              · left
                refine ⟨?_, left', rest', h1, by simp [h2], h3⟩
                dsimp only at hl ⊢
                rw [length_rxBytes_append]; omega
              · right
                refine ⟨h1, ?_, fun _ => ?_⟩
                · rcases e with e | ⟨e, e'⟩
                  · exact .inl (by simp [e])
                  · exact .inr ⟨by rw [e], e'⟩
                · dsimp only at hlt ⊢
                  rw [length_rxBytes_append]
                  by_cases ht : taken = []
                  · rw [ht, h1] at hd'; cases hd'; simp; omega
                  · have := hlt ht; omega
            · intro first hp hne' c hc
              rw [List.flatten_cons, List.append_assoc] at hp hne'
              rcases List.prefix_or_prefix_of_prefix hp (List.prefix_append _ _) with hp' | ⟨more, rfl⟩
              · by_cases hf : first = seg :: segs
                · subst hf; rw [hd] at hc; cases hc; dsimp only; omega
                · exact hfew first hp' hf c hc
              · obtain ⟨a', ha', d, hd'', rfl⟩ := decodeAll_append_eq_ok.1 hc
                rw [hd] at ha'; cases ha'
                have := hmin more ((List.prefix_append_right_inj _).1 hp) (fun e => hne' (by rw [e])) d hd''
                rw [length_rxBytes_append]; dsimp only; omega

/-- The receives of a READ complete on legal segments from a legal state. -/
theorem readBatches_completes {p : Params} {bp : Nat} (h1 : BpLegal p bp) (captures : List (List Segment))
    (h2 : ∀ batch ∈ captures, ∀ seg ∈ batch, SegmentLegal p seg) (room : Nat) (st : DecoderState) (h3 : st.Legal) :
    ∃ r, readBatches p bp captures room st = .ok r := by
  induction captures generalizing room st with
  | nil => exact ⟨_, rfl⟩
  | cons batch rest ih =>
    cases batch with
    | nil => exact ⟨_, rfl⟩
    | cons seg segs =>
      obtain ⟨a, ha⟩ := readBatch_completes h1 (seg :: segs) (h2 _ (by simp)) room st h3
      obtain ⟨-, used, e, hd, -, -⟩ := readBatch_ok ha
      rw [readBatches, ha]
      dsimp only
      split
      · exact ⟨_, rfl⟩
      · obtain ⟨b, hb⟩ := ih (fun c hc => h2 c (by simp [hc])) (room - (rxBytes a.2.1).length) a.1
          (decodeAll_legal hd h3)
        rw [hb]
        exact ⟨_, rfl⟩

/- What every operation can do -/

theorem execEncByte_next {b : Byte} {bp : Nat} {s t : State} :
    exec (.encByte b bp) s = .next t ↔ BpLegal s.params bp ∧ t = s.encoded (encodeByte b bp) := by
  show execEncByte b bp s = _ ↔ _
  unfold execEncByte
  by_cases h : BpLegal s.params bp
  · rw [if_pos h]; exact ⟨fun e => ⟨h, (Host.Outcome.next.inj e).symm⟩, fun e => congrArg _ e.2.symm⟩
  · rw [if_neg h]; exact ⟨nofun, fun e => absurd e.1 h⟩

theorem execEncBuf_next {bytes : List Byte} {bp cap : Nat} {s t : State} :
    exec (.encBuf bytes bp cap) s = .next t ↔ BpLegal s.params bp ∧ t = encodeBuffer bytes bp cap s := by
  show execEncBuf bytes bp cap s = _ ↔ _
  unfold execEncBuf
  by_cases h : BpLegal s.params bp
  · rw [if_pos h]; exact ⟨fun e => ⟨h, (Host.Outcome.next.inj e).symm⟩, fun e => congrArg _ e.2.symm⟩
  · rw [if_neg h]; exact ⟨nofun, fun e => absurd e.1 h⟩

theorem execQuant_next {d bp : Nat} {s t : State} :
    exec (.quant d bp) s = .next t ↔
      BpLegal s.params bp ∧ DurationLegal s.params d ∧ t = s.quantized (rhu d bp) := by
  show execQuant d bp s = _ ↔ _
  unfold execQuant
  by_cases h : BpLegal s.params bp
  · rw [if_neg (not_not.2 h)]
    by_cases h' : DurationLegal s.params d
    · rw [if_neg (not_not.2 h')]
      exact ⟨fun e => ⟨h, h', (Host.Outcome.next.inj e).symm⟩, fun e => congrArg _ e.2.2.symm⟩
    · rw [if_pos h']; exact ⟨nofun, fun e => absurd e.2.1 h'⟩
  · rw [if_pos h]; exact ⟨nofun, fun e => absurd e.1 h⟩

theorem finishDecode_next {r : Except Refusal (DecoderState × List Item)} {s t : State} :
    finishDecode r s = .next t ↔ ∃ a, r = .ok a ∧ t = s.decoded a.1 a.2 := by
  cases r with
  | error e => exact ⟨nofun, by rintro ⟨a, h, -⟩; cases h⟩
  | ok a =>
    exact ⟨fun e => ⟨a, rfl, (Host.Outcome.next.inj e).symm⟩, by rintro ⟨b, h, rfl⟩; cases h; rfl⟩

theorem execDecSeg_next {seg : Segment} {bp : Nat} {s t : State} :
    exec (.decSeg seg bp) s = .next t ↔
      s.contended = false ∧ BpLegal s.params bp ∧ SegmentLegal s.params seg ∧ s.dec.Legal ∧
        t = s.decoded (segmentStep bp seg s.dec).1 (segmentStep bp seg s.dec).2 := by
  show execDecSeg seg bp s = _ ↔ _
  unfold execDecSeg
  cases hc : s.contended with
  | true => exact ⟨nofun, fun h => absurd h.1 (by simp)⟩
  | false =>
    simp only [Bool.false_eq_true, if_false, finishDecode_next, decodeSegment_eq_ok, true_and]
    constructor
    · rintro ⟨a, ⟨h1, h2, h3, rfl⟩, rfl⟩; exact ⟨h1, h2, h3, rfl⟩
    · rintro ⟨h1, h2, h3, rfl⟩; exact ⟨_, ⟨h1, h2, h3, rfl⟩, rfl⟩

theorem execDecBatch_next {segs : List Segment} {bp : Nat} {s t : State} :
    exec (.decBatch segs bp) s = .next t ↔
      s.contended = false ∧ BpLegal s.params bp ∧
        ∃ a, decodeAll s.params bp segs s.dec = .ok a ∧ t = s.decoded a.1 a.2 := by
  show execDecBatch segs bp s = _ ↔ _
  unfold execDecBatch
  cases hc : s.contended with
  | true => exact ⟨nofun, fun h => absurd h.1 (by simp)⟩
  | false =>
    simp only [Bool.false_eq_true, if_false, finishDecode_next, decodeBatch_eq_ok, true_and]
    constructor
    · rintro ⟨a, ⟨h1, h2⟩, rfl⟩; exact ⟨h1, a, h2, rfl⟩
    · rintro ⟨h1, a, h2, rfl⟩; exact ⟨a, ⟨h1, h2⟩, rfl⟩

theorem execDecInit_next {s t : State} :
    exec .decInit s = .next t ↔ s.contended = false ∧ t = s.initDecoder := by
  show execDecInit s = _ ↔ _
  unfold execDecInit
  cases hc : s.contended with
  | true => exact ⟨nofun, fun h => absurd h.1 (by simp)⟩
  | false =>
    exact ⟨fun e => ⟨rfl, (Host.Outcome.next.inj e).symm⟩, fun e => congrArg Host.Outcome.next e.2.symm⟩

theorem execWrite_next {bytes : List Byte} {bp cap : Nat} {s t : State} :
    exec (.write bytes bp cap) s = .next t ↔
      BpLegal s.params bp ∧ t = transmit (encodeBuffer bytes bp cap s) := by
  show execWrite bytes bp cap s = _ ↔ _
  unfold execWrite
  by_cases h : BpLegal s.params bp
  · rw [if_pos h]; exact ⟨fun e => ⟨h, (Host.Outcome.next.inj e).symm⟩, fun e => congrArg _ e.2.symm⟩
  · rw [if_neg h]; exact ⟨nofun, fun e => absurd e.1 h⟩

/-- What WRITE does after ENC.BUF (R111). -/
theorem transmit_cases (s : State) :
    (s.encResult = .overflow ∧ transmit s = s.wrote .failure) ∨
    (s.encResult ≠ .overflow ∧ s.txPairs = [] ∧ s.params.writeEmptySends = false ∧ transmit s = s.wroteNothing) ∨
    (s.encResult ≠ .overflow ∧ (s.txPairs = [] → s.params.writeEmptySends = true) ∧
      transmit s = s.handOff s.nextReport) := by
  unfold transmit
  split
  · exact .inl ⟨‹_›, rfl⟩
  · split
    · rename_i h; exact .inr (.inl ⟨‹_›, h.1, h.2, rfl⟩)
    · rename_i h
      exact .inr (.inr ⟨‹_›, fun e => by simpa using fun h' => h ⟨e, h'⟩, rfl⟩)

/-- READ: a time-out, or batches. -/
theorem execRead_next {max timeout bp : Nat} {s t : State} :
    exec (.read max timeout bp) s = .next t ↔
      s.contended = false ∧
        (((s.captures = [] ∨ s.captures.head? = some []) ∧ t = s.timedOut s.captures.tail) ∨
         (∃ seg segs rest, s.captures = (seg :: segs) :: rest) ∧
           ∃ r, readBatches s.params bp s.captures (max - s.kept.length) s.dec = .ok r ∧
             t = (s.delivered max (rxBytes r.2.1) r.2.2).decoded r.1 r.2.1) := by
  show execRead max timeout bp s = _ ↔ _
  unfold execRead
  cases hc : s.contended with
  | true => exact ⟨nofun, fun h => absurd h.1 (by simp)⟩
  | false =>
    simp only [Bool.false_eq_true, if_false, true_and]
    have timeout_case : ∀ t : State, (s.captures = [] ∨ s.captures.head? = some []) →
        ((Host.Outcome.next (s.timedOut s.captures.tail) : Host.Outcome State Fault Refusal) = .next t ↔
        (((s.captures = [] ∨ s.captures.head? = some []) ∧ t = s.timedOut s.captures.tail) ∨
         (∃ seg segs rest, s.captures = (seg :: segs) :: rest) ∧
           ∃ r, readBatches s.params bp s.captures (max - s.kept.length) s.dec = .ok r ∧
             t = (s.delivered max (rxBytes r.2.1) r.2.2).decoded r.1 r.2.1)) := by
      intro t h
      constructor
      · intro e; exact .inl ⟨h, (Host.Outcome.next.inj e).symm⟩
      · rintro (⟨-, rfl⟩ | ⟨⟨seg, segs, rest, e⟩, -⟩)
        · rfl
        · rw [e] at h; simp at h
    cases hcap : s.captures with
    | nil => have := timeout_case t (.inl hcap); rw [hcap] at this; exact this
    | cons batch rest =>
      cases batch with
      | nil => have := timeout_case t (.inr (by rw [hcap]; rfl)); rw [hcap] at this; exact this
      | cons seg segs =>
        show readArrived max bp s = _ ↔ _
        unfold readArrived
        rw [hcap]
        cases hr : readBatches s.params bp ((seg :: segs) :: rest) (max - s.kept.length) s.dec with
        | error e =>
          constructor
          · nofun
          · rintro (⟨h, -⟩ | ⟨-, r, h, -⟩)
            · simp at h
            · cases h
        | ok r =>
          constructor
          · intro e; exact .inr ⟨⟨_, _, _, rfl⟩, r, rfl, (Host.Outcome.next.inj e).symm⟩
          · rintro (⟨h, -⟩ | ⟨-, r', h, rfl⟩)
            · simp at h
            · cases h; rfl

/-- A step is idle, or runs the operation at the front of the requests. -/
theorem step_next {s t : State} :
    step s = .next t ↔
      (s.requests = [] ∧ t = s) ∨
      ∃ i rest, s.requests ≠ [] ∧ decode s.requests = .ok (i, rest) ∧ exec i (s.consume rest) = .next t := by
  unfold step fetch
  cases hq : s.requests with
  | nil =>
    constructor
    · intro e; exact .inl ⟨rfl, (Host.Outcome.next.inj e).symm⟩
    · rintro (⟨-, rfl⟩ | ⟨i, rest, h, -⟩)
      · rfl
      · exact absurd rfl h
  | cons b bs =>
    cases hd : decode (b :: bs) with
    | error e =>
      constructor
      · intro h; simp [hd] at h
      · rintro (⟨h, -⟩ | ⟨i, rest, -, h, -⟩)
        · cases h
        · cases h
    | ok r =>
      simp only [hd]
      constructor
      · intro h; exact .inr ⟨r.1, r.2, by simp, rfl, h⟩
      · rintro (⟨h, -⟩ | ⟨i, rest, -, h, h'⟩)
        · cases h
        · cases h; exact h'

end Sys2Proof.Machine
end

