-- ==== Sys2Proof/Tests/Slice0.lean ====
section
/-! SUPPORT. Tests: ill-formed operations, words written out by hand, the spec's own vectors (spec/95_test_vectors.md,
named in each comment), and for every obligation with hypotheses a state and operands that meet them all. -/

namespace Sys2Proof.Tests
open Sys2Proof.Machine

/-- `H<d>` of R61. -/
def H (d : Nat) : Segment := ⟨d, true⟩
/-- `L<d>` of R61. -/
def L (d : Nat) : Segment := ⟨d, false⟩

/-- A fresh channel with this DecoderState. -/
def at_ (p : BitVec 4) (acc : BitVec 10) : State := { State.reset with dec := ⟨p, acc⟩ }

/-- What the tests look at in an outcome. -/
def view {α : Type} (f : State → α) : Host.Outcome State Fault Refusal → Option α
  | .next s => some (f s)
  | _ => none

/- WellFormed refuses an ill-formed operation, one for each of its checks -/

theorem test_wf_bp_zero : WellFormed State.reset.params (.encByte 0x41 0) = false := by decide
theorem test_wf_bp_wide : WellFormed State.reset.params (.encBuf [] (2 ^ 15) 0) = false := by decide
theorem test_wf_quant_bp : WellFormed State.reset.params (.quant 1 0) = false := by decide
theorem test_wf_quant_duration : WellFormed State.reset.params (.quant (2 ^ 15) 1) = false := by decide
theorem test_wf_seg_bp : WellFormed State.reset.params (.decSeg (H 1) 0) = false := by decide
theorem test_wf_seg_duration : WellFormed State.reset.params (.decSeg (H (2 ^ 15)) 1) = false := by decide
theorem test_wf_batch_bp : WellFormed State.reset.params (.decBatch [] 0) = false := by decide
theorem test_wf_batch_duration : WellFormed State.reset.params (.decBatch [L 1, H (2 ^ 15)] 1) = false := by decide
theorem test_wf_write_bp : WellFormed State.reset.params (.write [] 0 0) = false := by decide
theorem test_wf_read_bp : WellFormed State.reset.params (.read 0 0 0) = false := by decide
theorem test_wf_accepts : WellFormed State.reset.params (.decBatch [L 0, H (2 ^ 15 - 1)] (2 ^ 15 - 1)) = true := by decide

/- Words written out: bits 2..0 of the first byte are the tag of opcode_table.json, the operand bytes the model's form -/

theorem test_decode_encByte : decode [0b00000000, 100, 0x41] = .ok (.encByte 0x41 100, []) := by rfl
theorem test_decode_encBuf : decode [0b00000001, 100, 20, 1, 0x41, 1, 0x42, 0] = .ok (.encBuf [0x41, 0x42] 100 20, []) := by rfl
theorem test_decode_quant : decode [0b00000010, 100, 0b10010101, 0b00000001] = .ok (.quant 149 100, []) := by rfl
theorem test_decode_decSeg : decode [0b00000011, 100, 0b11110100, 0b00000011, 0] = .ok (.decSeg (L 500) 100, []) := by rfl
theorem test_decode_decBatch : decode [0b00000100, 100, 1, 100, 0, 1, 100, 1, 0, 5] = .ok (.decBatch [L 100, H 100] 100, [5]) := by rfl
theorem test_decode_decInit : decode [0b00000101] = .ok (.decInit, []) := by rfl
theorem test_decode_write : decode [0b00000110, 100, 10, 1, 0x41, 0] = .ok (.write [0x41] 100 10, []) := by rfl
theorem test_decode_read : decode [0b00000111, 16, 7, 100] = .ok (.read 16 7 100, []) := by rfl
theorem test_decode_bp_codes : decode [2, 0, 9] = .ok (.quant 9 1, []) ∧ decode [2, 1, 9] = .ok (.quant 9 0, []) := ⟨rfl, rfl⟩
theorem test_decode_refuses : decode [0b00001000] = .error .reservedTag ∧ decode [2, 0x80, 0, 1] = .error .overlong ∧
    decode [4, 0, 2] = .error .badMark ∧ decode [3, 0, 0, 2] = .error .badLevel ∧ decode [3, 0] = .error .truncated :=
  ⟨rfl, rfl, rfl, rfl, rfl⟩

/- One operation each, on the spec's vectors -/

/-- V-S1a -/
theorem test_encByte_41 : view State.txSeg (exec (.encByte 0x41 100) State.reset) =
    some [H 100, L 100, H 100, H 100, H 100, H 100, H 100, L 100, H 100, L 100] := by decide
/-- V-E6, at BP = 1 as V-E9 -/
theorem test_encByte_80 : view State.txSeg (exec (.encByte 0x80 1) State.reset) =
    some [H 1, H 1, H 1, H 1, H 1, H 1, H 1, H 1, L 1, L 1] := by decide
/-- V-E10, P4 step 1 -/
theorem test_encBuf_fits : view (fun s => (s.encResult, s.txSeg)) (exec (.encBuf [0x41, 0x42] 100 20) State.reset) =
    some (.ok, [H 100, L 100, H 100, H 100, H 100, H 100, H 100, L 100, H 100, L 100,
      H 100, H 100, L 100, H 100, H 100, H 100, H 100, L 100, H 100, L 100]) := by decide
/-- V-E11 -/
theorem test_encBuf_overflows : view (fun s => (s.encResult, s.txSeg)) (exec (.encBuf [0x41, 0x42, 0x43] 100 20)
    State.reset) = some (.overflow, []) := by decide
/-- V-Q1 -/
theorem test_quant_half_up : view State.span (exec (.quant 149 100) State.reset) = some 1 ∧
    view State.span (exec (.quant 150 100) State.reset) = some 2 ∧
    view State.span (exec (.quant 49 100) State.reset) = some 0 := by decide
/-- V-Q4 -/
theorem test_quant_odd : view State.span (exec (.quant 3 7) State.reset) = some 0 ∧
    view State.span (exec (.quant 4 7) State.reset) = some 1 := by decide
/-- V-D9, its last segment -/
theorem test_decSeg_fill : view (fun s => (s.dec, s.decOut)) (exec (.decSeg (H 49) 100) (at_ 7 0x002)) =
    some (⟨0, 0⟩, [.byte 0xC1]) := by decide
/-- V-D21 -/
theorem test_decSeg_break : view (fun s => (s.dec, s.decOut)) (exec (.decSeg (L 950) 100) State.reset) =
    some (⟨10, 0⟩, [.event .missingStopBit]) := by decide
/-- V-D25 -/
theorem test_decBatch_realigns : view (fun s => (s.dec, s.decOut)) (exec (.decBatch [L 100, H 100, L 300, H 2000,
    L 100, H 100, L 500, H 100, L 100, H 100] 100) State.reset) =
    some (⟨0, 0⟩, [.byte 0xF1, .event .skippedNonStart, .byte 0x41]) := by decide
/-- V-D14 -/
theorem test_decBatch_uninverted : view (fun s => (s.dec, s.decOut)) (exec (.decBatch [H 100, L 100, H 100, H 100,
    H 100, H 100, H 100, L 100, H 100, L 100] 100) State.reset) = some (⟨9, 0x0BE⟩, [.event .skippedNonStart]) := by decide
/-- The worked example of R110 -/
theorem test_decInit : view State.dec (exec .decInit (at_ 10 0x002)) = some ⟨0, 0⟩ := by decide
/-- R111's worked example, with a capability that completes: the line carries `inv` of the frames of P1 step 2 -/
theorem test_write_completes : view (fun s => (s.writeResult, s.line)) (exec (.write [0x41] 100 10)
    { State.reset with txReports := [.completed] }) =
    some (.success, [L 100, H 100, L 100, L 100, L 100, L 100, L 100, H 100, L 100, H 100]) := by decide
/-- R111's worked example: three bytes at CAP = 20 -/
theorem test_write_overflows : view (fun s => (s.writeResult, s.line, s.handoffs)) (exec (.write [0x41, 0x42, 0x43] 100 20)
    State.reset) = some (.failure, [], []) := by decide
/-- R112's worked example -/
theorem test_read_one_byte : view (fun s => (s.readBytes, s.dec)) (exec (.read 8 1 100)
    { State.reset with captures := [[L 100, H 100, L 500, H 100, L 100, H 0]] }) = some ([0x41], ⟨0, 0⟩) := by decide
/-- READ_EXCESS `stopEarly` on V-D26: one byte is taken and the rest stays unread -/
theorem test_read_stops_early : view (fun s => (s.readBytes, s.captures)) (exec (.read 1 1 100)
    { State.reset with params := ⟨15, .one, .stopEarly, false, 0⟩,
                       captures := [[L 100, H 100, L 200, H 40, L 100, H 900]] }) =
    some ([0xF9], [[L 100, H 900]]) := by decide

/- Every row of the table, with operand bytes of zero, runs as the first request after reset -/

theorem test_table_words_run : ∀ w, w < 8 →
    (view State.requests (step (State.reset.withFetchWord 8 w))) = some [] := by decide
/-- P3 step 1, through the request bytes -/
theorem test_step_runs_request : view State.dec (step { State.reset with
    requests := encode (.decBatch [L 1000, H 100, L 100, H 900] 100) }) = some ⟨10, 0⟩ := by decide

/- States and operands that meet the hypotheses of the obligations -/

theorem witness_decoded_bytes : decode [5, 9] = .ok (.decInit, [9]) := rfl
theorem witness_step_runs : decode { State.reset with requests := [5] }.requests = .ok (.decInit, []) := rfl
theorem witness_step_without_operation :
    State.reset.requests = [] ∧
    ({ State.reset with requests := [3, 0] }.requests ≠ [] ∧ decode [3, 0] = .error .truncated) ∧
    ({ State.reset with requests := [8] }.requests = (8 : Byte) :: [] ∧ 8 ≤ (8 : Byte).toNat) ∧
    ({ State.reset with requests := [255] }.requests = (255 : Byte) :: [] ∧ 8 ≤ (255 : Byte).toNat) :=
  ⟨rfl, ⟨by decide, rfl⟩, ⟨rfl, by decide⟩, rfl, by decide⟩
theorem witness_placed_word : decodeTableWord 8 7 = some (.read 0 0 1) := by decide
theorem reset_inv : State.reset.Inv :=
  ⟨by decide, by decide, by decide, by decide, by decide, List.suffix_refl _, fun _ => rfl, nofun⟩
theorem witness_step_keeps_invariant :
    State.reset.Inv ∧ ∃ t, step { State.reset with requests := [0, 100, 0x41] } = .next t ∧ t.txPairs.length = 5 :=
  ⟨reset_inv, _, rfl, rfl⟩
/-- ENC.BYTE, ENC.BUF, QUANT: the least and the greatest legal bit period, and the refused values beside them. -/
theorem witness_bp_bounds : BpLegal State.reset.params 1 ∧ BpLegal State.reset.params (2 ^ 15 - 1) ∧
    ¬ BpLegal State.reset.params 0 ∧ ¬ BpLegal State.reset.params (2 ^ 15) ∧
    (0 = 0 ∨ 2 ^ State.reset.params.durW ≤ 0) ∧ (2 ^ 15 = 0 ∨ 2 ^ State.reset.params.durW ≤ 2 ^ 15) ∧
    DurationLegal State.reset.params 0 ∧ DurationLegal State.reset.params (2 ^ 15 - 1) ∧
    ¬ DurationLegal State.reset.params (2 ^ 15) := by decide
/-- ENC.BUF that just fits and that just does not (V-E10, V-E13), with bytes at index 0 and 1 and segments 0 and 9. -/
theorem witness_encBuf : BpLegal State.reset.params 100 ∧ 10 * [0x41, 0x42].length ≤ 20 ∧
    ([0x41, 0x42] : List Byte)[0]? = some 0x41 ∧ ([0x41, 0x42] : List Byte)[1]? = some 0x42 ∧ 0 < 10 ∧ 9 < 10 ∧
    9 < 10 * [0x41].length ∧ 10 * [0x41].length ≤ 10 := by decide
theorem witness_encBuf_overflow : ∃ t, exec (.encBuf [0x41] 100 9) State.reset = .next t ∧ 9 < 10 * [0x41].length ∧
    t.encResult = .overflow := ⟨_, rfl, by decide, rfl⟩
theorem witness_encBuf_ok : ∃ t, exec (.encBuf [0x41] 100 10) State.reset = .next t ∧ t.encResult = .ok := ⟨_, rfl, rfl⟩
theorem witness_encBuf_concatenation : ∃ a b c, 10 * (([0x41] : List Byte) ++ [0x42]).length ≤ 20 ∧
    exec (.encBuf ([0x41] ++ [0x42]) 100 20) State.reset = .next a ∧ exec (.encBuf [0x41] 100 20) State.reset = .next b ∧
    exec (.encBuf [0x42] 100 20) State.reset = .next c := ⟨_, _, _, by decide, rfl, rfl, rfl⟩
theorem witness_encoder_operands_only : State.reset.params.durW = (at_ 10 0x002).params.durW ∧
    ∃ t, exec (.encBuf [0x41] 100 10) State.reset = .next t := ⟨rfl, _, rfl⟩
/-- QUANT at both ends of the window of k = 3 at BP = 100 (V-Q2). -/
theorem witness_quant_window : (∃ t, exec (.quant 250 100) State.reset = .next t) ∧
    ((250 : Nat) : Int) = 3 * (100 : Nat) + (-50) ∧ (∃ t, exec (.quant 349 100) State.reset = .next t) ∧
    ((349 : Nat) : Int) = 3 * (100 : Nat) + 49 := ⟨⟨_, rfl⟩, by decide, ⟨_, rfl⟩, by decide⟩
/-- DEC.SEG: a legal state for each value of BITPOS at which the rows of R98 meet, with a legal segment. -/
theorem witness_decSeg_legal : State.reset.contended = false ∧ BpLegal State.reset.params 100 ∧
    SegmentLegal State.reset.params (H 100) ∧ SegmentLegal State.reset.params (L 950) := by decide
theorem witness_legal_states : (at_ 0 0).dec.Legal ∧ (at_ 1 0).dec.Legal ∧ (at_ 9 0x1FE).dec.Legal ∧
    (at_ 10 0x002).dec.Legal := ⟨by decide, by decide, by decide, by decide⟩
theorem witness_illegal_states : ¬ (at_ 11 0).dec.Legal ∧ ¬ (at_ 0 2).dec.Legal := ⟨by decide, by decide⟩
/-- The rows of R98 at their edges: p + n = 9, 10, 11, high and low, from BITPOS = 1 (V-D22, V-D23, V-D15, V-D20, V-D21). -/
theorem witness_decSeg_rows :
    view (fun s => (s.dec, s.decOut)) (exec (.decSeg (H 849) 100) (at_ 1 0)) = some (⟨9, 0x1FE⟩, []) ∧
    view (fun s => (s.dec, s.decOut)) (exec (.decSeg (H 850) 100) (at_ 1 0)) = some (⟨0, 0⟩, [.byte 0xFF]) ∧
    view (fun s => (s.dec, s.decOut)) (exec (.decSeg (H 950) 100) (at_ 1 0)) =
      some (⟨0, 0⟩, [.byte 0xFF, .event .skippedNonStart]) ∧
    view (fun s => (s.dec, s.decOut)) (exec (.decSeg (L 949) 100) (at_ 0 0)) = some (⟨9, 0⟩, []) ∧
    view (fun s => (s.dec, s.decOut)) (exec (.decSeg (L 49) 100) (at_ 3 2)) = some (⟨3, 2⟩, []) ∧
    view (fun s => (s.dec, s.decOut)) (exec (.decSeg (H 49) 100) (at_ 0 0)) = some (⟨0, 0⟩, [.event .skippedNonStart]) ∧
    view (fun s => (s.dec, s.decOut)) (exec (.decSeg (H 49) 100) (at_ 10 2)) = some (⟨10, 2⟩, []) := by decide
theorem witness_idle : State.reset.dec.bitpos = 0 ∧ State.reset.dec.Legal ∧ DurationLegal State.reset.params 0 := by decide
theorem witness_zero_span : 2 * 49 < 100 ∧ 1 ≤ (at_ 9 0).dec.bitpos.toNat ∧ (at_ 9 0).dec.bitpos.toNat ≤ 9 ∧
    (at_ 9 0).dec.Legal ∧ 1 ≤ (at_ 1 0).dec.bitpos.toNat ∧ (at_ 1 0).dec.Legal ∧ (at_ 0 0).dec.bitpos = 0 ∧
    DurationLegal State.reset.params 49 := by decide
theorem witness_missing_stop : (at_ 9 0x1FE).dec.Legal ∧ (at_ 9 0x1FE).dec.bitpos.toNat ≤ 9 ∧
    10 ≤ (at_ 9 0x1FE).dec.bitpos.toNat + (2 * 100 + 100) / (2 * 100) ∧
    10 ≤ (at_ 0 0).dec.bitpos.toNat + (2 * 950 + 100) / (2 * 100) := by decide
theorem witness_conditions :
    (∃ t, exec (.decSeg (H 950) 100) (at_ 1 0) = .next t ∧ .skippedNonStart ∈ events t.decOut) ∧
    (∃ t, exec (.decSeg (L 800) 100) (at_ 2 2) = .next t ∧ .missingStopBit ∈ events t.decOut) :=
  ⟨⟨_, rfl, by decide⟩, _, rfl, by decide⟩
theorem witness_emitted_byte : ∃ t, exec (.decSeg (H 49) 100) (at_ 7 0x002) = .next t ∧ .byte 0xC1 ∈ t.decOut :=
  ⟨_, rfl, by decide⟩
theorem witness_clamp : (⟨1, 0⟩ : DecoderState).Legal ∧ (1 : BitVec 4).toNat ≤ 9 ∧ 11 ≤ 11 := by decide
theorem witness_merged : (at_ 1 0).contended = false ∧ BpLegal (at_ 1 0).params 100 ∧ (at_ 1 0).dec.Legal ∧
    DurationLegal (at_ 1 0).params ((9 + 1) * 100) ∧ 1 ≤ 9 ∧ 1 ≤ 1 ∧ 1 ≤ (at_ 1 0).dec.bitpos.toNat ∧
    (at_ 1 0).dec.bitpos.toNat + 9 ≤ 10 := by decide
theorem witness_batch_steps : ∃ a b t, exec (.decSeg (L 100) 100) State.reset = .next a ∧
    exec (.decBatch [H 900] 100) a = .next b ∧ exec (.decBatch (L 100 :: [H 900]) 100) State.reset = .next t :=
  ⟨_, _, _, rfl, rfl, rfl⟩
theorem witness_batch_legal : State.reset.contended = false ∧ BpLegal State.reset.params 100 ∧
    (∀ seg ∈ [L 100, H 900], SegmentLegal State.reset.params seg) ∧ State.reset.dec.Legal := by decide
theorem witness_batch_split : (∃ a b, exec (.decBatch [L 100] 100) State.reset = .next a ∧
    exec (.decBatch [H 900] 100) a = .next b) ∧ ∃ t, exec (.decBatch ([L 100] ++ [H 900]) 100) State.reset = .next t :=
  ⟨⟨_, _, rfl, rfl⟩, _, rfl⟩
/-- P1, its ten line segments cut into two batches. -/
theorem witness_round_trip : ∃ e, State.reset.contended = false ∧ State.reset.dec = ⟨0, 0⟩ ∧ 10 * [0x41].length ≤ 10 ∧
    exec (.encBuf [0x41] 100 10) State.reset = .next e ∧
    [[L 100, H 100, L 100], [L 100, L 100, L 100, L 100, H 100, L 100, H 100]].flatten = inv e.txSeg :=
  ⟨_, rfl, rfl, by decide, rfl, rfl⟩
theorem witness_idle_between : (∀ seg ∈ [H 5000], seg.level = true) ∧ State.reset.dec.bitpos = 0 ∧
    ∃ t, exec (.decBatch ([H 5000] ++ [L 100, H 900]) 100) State.reset = .next t := ⟨by decide, rfl, _, rfl⟩
theorem witness_uninverted : ∃ e t, State.reset.dec = ⟨0, 0⟩ ∧ exec (.encByte 0x41 100) State.reset = .next e ∧
    exec (.decBatch e.txSeg 100) e = .next t := ⟨_, _, rfl, rfl, rfl⟩
theorem witness_write : BpLegal State.reset.params 100 ∧ ([0x41] : List Byte) ≠ [] ∧ 10 * [0x41].length ≤ 10 ∧
    9 < 10 * [0x41].length := by decide
/-- A hand-off for which the capability reports a failure, half of a segment on the line. -/
theorem witness_write_fails : BpLegal State.reset.params 100 ∧
    view (fun s => (s.writeResult, s.line)) (exec (.write [0x41] 100 10)
      { State.reset with txReports := [.failed [L 50]] }) = some (.failure, [L 50]) := by decide
/-- An empty WRITE under each value of its parameter, and one that is sent and fails. -/
theorem witness_empty_write : State.reset.params.writeEmptySends = false ∧
    { State.reset with params := ⟨15, .one, .drop, true, 0⟩ }.params.writeEmptySends = true := ⟨rfl, rfl⟩
theorem witness_empty_write_sent :
    view (fun s => (s.writeResult, s.handoffs, s.line)) (exec (.write [] 100 0)
      { State.reset with params := ⟨15, .one, .drop, true, 0⟩, txReports := [.failed []] }) =
    some (.failure, [⟨[], true⟩], []) := by decide
theorem witness_read_timeout : State.reset.captures = [] ∧
    { State.reset with captures := [[], [L 100]] }.captures.head? = some [] := ⟨rfl, rfl⟩
/-- A channel on which one byte and the start of another are to be captured. -/
def listening (p : Params) : State := { State.reset with params := p, captures := [[L 100, H 900, L 100]] }
theorem witness_read : (listening State.reset.params).contended = false ∧ BpLegal (listening State.reset.params).params 100 ∧
    (listening State.reset.params).dec.Legal ∧
    ∀ batch ∈ (listening State.reset.params).captures, ∀ seg ∈ batch, SegmentLegal (listening State.reset.params).params seg := by
  decide
/-- READ of one batch, dropping and keeping. -/
theorem witness_read_one_batch :
    (∃ d, State.reset.params.readBatches = .one ∧ State.reset.params.readExcess = .drop ∧
      exec (.decBatch [L 100, H 900, L 100] 100) (listening State.reset.params) = .next d) ∧
    ∃ d, exec (.decBatch [L 100, H 900, L 100] 100) (listening ⟨15, .one, .keep, false, 0⟩) = .next d :=
  ⟨⟨_, rfl, rfl, rfl⟩, _, rfl⟩
theorem witness_read_keeps : (∃ seg segs rest, (listening ⟨15, .one, .keep, false, 0⟩).captures = (seg :: segs) :: rest) ∧
    ∃ t, exec (.read 0 1 100) (listening ⟨15, .one, .keep, false, 0⟩) = .next t ∧ t.held = [0xFF] :=
  ⟨⟨_, _, _, rfl⟩, _, rfl, by decide⟩
/-- A channel to which three batches come: a byte, a byte and the start of another, a time-out. -/
def several (x : ReadExcess) : State :=
  { State.reset with params := ⟨15, .several, x, false, 0⟩,
                     captures := [[L 100, H 900], [L 900, H 100, L 100, H 900], [], [L 100]] }
/-- READ of several batches: it comes to its bound in the second, and with a larger one it times out after it. -/
theorem witness_read_several :
    view (fun s => (s.readBytes, s.held, s.captures)) (exec (.read 2 1 100) (several .keep)) =
      some ([0xFF, 0x00], [0xFF], [[], [L 100]]) ∧
    view (fun s => (s.readBytes, s.captures)) (exec (.read 4 1 100) (several .drop)) =
      some ([0xFF, 0x00, 0xFF], [[L 100]]) := by decide
theorem witness_read_several_stops :
    view (fun s => (s.readBytes, s.captures)) (exec (.read 2 1 100) (several .stopEarly)) =
      some ([0xFF, 0x00], [[L 100, H 900], [], [L 100]]) ∧
    view (fun s => (s.readBytes, s.captures)) (exec (.read 4 1 100) (several .stopEarly)) =
      some ([0xFF, 0x00, 0xFF], [[L 100]]) := by decide
/-- R112: a READ on a WEDGED channel returns no bytes, and what is held stays held. -/
theorem witness_read_wedged :
    view (fun s => (s.readBytes, s.held)) (exec (.read 8 1 100) { listening ⟨15, .one, .keep, false, 0⟩ with
      dec := ⟨10, 0⟩, held := [0x41] }) = some ([], [0x41]) := by decide
theorem witness_read_stops : ∃ t, exec (.read 1 1 100) (listening ⟨15, .one, .stopEarly, false, 0⟩) = .next t ∧
    t.captures = [[L 100]] := ⟨_, rfl, by decide⟩
/-- One byte written, and its line captured on another channel. -/
theorem witness_read_back : ∃ w, exec (.write [0x41] 100 10) { State.reset with txReports := [.completed] } = .next w ∧
    ∃ rx : State, BpLegal rx.params 100 ∧ rx.contended = false ∧ rx.dec = ⟨0, 0⟩ ∧ rx.captures = [w.line] ∧
      rx.held = [] ∧ 10 * [0x41].length ≤ 10 ∧ [0x41].length ≤ 1 := by
  refine ⟨_, rfl, { State.reset with captures := [_] }, ?_, rfl, rfl, rfl, rfl, ?_, ?_⟩ <;> decide
theorem witness_refusals : ¬ BpLegal State.reset.params 0 ∧ ¬ BpLegal State.reset.params (2 ^ 15) ∧
    ¬ SegmentLegal State.reset.params (H (2 ^ 15)) ∧ (∃ seg ∈ [L 1, H (2 ^ 15)], ¬ SegmentLegal State.reset.params seg) ∧
    ¬ (at_ 11 0).dec.Legal ∧ { State.reset with contended := true }.contended = true := by decide
theorem witness_ready : Ready (.encByte 0 1) State.reset ∧ Ready (.decBatch [] 1) (at_ 11 0) ∧
    Ready (.read 1 1 100) (listening State.reset.params) := by
  refine ⟨?_, ?_, ?_⟩
  · show BpLegal _ _; decide
  · exact ⟨rfl, by decide, by decide, .inl rfl⟩
  · exact ⟨rfl, by decide, by decide, by decide⟩
theorem witness_sequences : State.reset.Inv ∧ State.reset.contended = false ∧
    (∀ batch ∈ State.reset.captures, ∀ seg ∈ batch, SegmentLegal State.reset.params seg) ∧
    ∀ i ∈ [Instr.decBatch [L 1000] 100, .read 1 1 100, .decInit], WellFormed State.reset.params i = true :=
  ⟨reset_inv, rfl, by decide, by decide⟩
theorem witness_sides : (∃ t, exec (.write [] 1 0) (at_ 9 0) = .next t) ∧
    (.write [] 1 0 : Instr) ∈ [.encByte 0 1, .encBuf [] 1 0, .quant 0 1, .write [] 1 0] ∧
    (∃ t, exec (.decSeg (L 0) 1) (at_ 9 0) = .next t) ∧
    (.decSeg (L 0) 1 : Instr) ∈ [.decSeg (L 0) 1, .decBatch [] 1, .decInit, .read 0 0 1] :=
  ⟨⟨_, rfl⟩, by decide, ⟨_, rfl⟩, by decide⟩
theorem witness_inputs_read_only : (∃ t, exec (.encByte 0 1) State.reset = .next t) ∧
    ∃ t, step { State.reset with requests := [5] } = .next t := ⟨⟨_, rfl⟩, _, rfl⟩
theorem witness_wedged : (∃ t, exec (.decSeg (L 1000) 100) State.reset = .next t ∧ ¬ State.reset.dec.Wedged ∧
    t.dec.Wedged) ∧ (at_ 10 2).dec.Wedged ∧ ∃ t, exec (.decSeg (H 5000) 100) (at_ 10 2) = .next t :=
  ⟨⟨_, rfl, by decide, by decide⟩, by decide, _, rfl⟩
theorem witness_wedged_run : (at_ 10 2).dec.Wedged ∧ Instr.decInit ∉ [Instr.decBatch [H 5000, L 100, H 900] 100] ∧
    ∃ t, execAll [.decBatch [H 5000, L 100, H 900] 100] (at_ 10 2) = .next t ∧ t.contended = false :=
  ⟨by decide, by decide, _, rfl, rfl⟩
theorem witness_commute : ∃ a b c d, exec (.encByte 0x41 100) State.reset = .next a ∧
    exec (.decSeg (L 100) 100) a = .next b ∧ exec (.decSeg (L 100) 100) State.reset = .next c ∧
    exec (.encByte 0x41 100) c = .next d := ⟨_, _, _, _, rfl, rfl, rfl, rfl⟩
/-- R133: the channels of a machine draw their free values from different streams. -/
theorem test_channels_streams : (Channels.reset 3).map (fun s => s.params.stream) = [0, 1, 2] := by decide
theorem witness_channels : ∃ a b c d, (0 : Nat) ≠ 1 ∧ Channels.step 0 (Channels.reset 2) = .next a ∧
    Channels.step 1 a = .next b ∧ Channels.step 1 (Channels.reset 2) = .next c ∧ Channels.step 0 c = .next d :=
  ⟨_, _, _, _, by decide, rfl, rfl, rfl, rfl⟩

end Sys2Proof.Tests
end

/-! Non-interference between the two sides of a channel (spec/00_scope.md R2, spec/20_memory.md R38). Each side is one
projection of State; every update of Laws/State.lean keeps the projection of the other side, so the frame of an
operation is read off the update that its inversion lemma of Laws/System.lean names. -/

namespace Sys2Proof.Machine

section ReceiveSide

/-- The receive side of a channel: the DecoderState, the last decode's output, the trace, what READ returned and keeps,
and what is still to be captured. -/
def State.receiveSide (s : State) :
    DecoderState × List Item × List Item × List Byte × List Byte × List (List Segment) :=
  (s.dec, s.decOut, s.trace, s.readBytes, s.held, s.captures)

theorem State.receiveSide_eq_iff {s t : State} :
    t.receiveSide = s.receiveSide ↔
      t.dec = s.dec ∧ t.decOut = s.decOut ∧ t.trace = s.trace ∧ t.readBytes = s.readBytes ∧ t.held = s.held ∧
        t.captures = s.captures := by
  simp only [receiveSide, Prod.mk.injEq]

variable (s : State)

@[simp] theorem State.encoded_receiveSide (pairs : List Pair) : (s.encoded pairs).receiveSide = s.receiveSide := rfl
@[simp] theorem State.overflow_receiveSide : s.overflow.receiveSide = s.receiveSide := rfl
@[simp] theorem State.quantized_receiveSide (n : Nat) : (s.quantized n).receiveSide = s.receiveSide := rfl
@[simp] theorem State.wrote_receiveSide (r : WriteResult) : (s.wrote r).receiveSide = s.receiveSide := rfl
@[simp] theorem State.wroteNothing_receiveSide : s.wroteNothing.receiveSide = s.receiveSide := rfl
@[simp] theorem State.handOff_receiveSide (r : TxReport) : (s.handOff r).receiveSide = s.receiveSide := rfl

/-- R72, R121: ENC.BUF, whether it overflows or not. -/
@[simp] theorem encodeBuffer_receiveSide (bytes : List Byte) (bp cap : Nat) :
    (encodeBuffer bytes bp cap s).receiveSide = s.receiveSide := by
  obtain ⟨-, h⟩ | ⟨-, h⟩ := encodeBuffer_cases bytes bp cap s
  · rw [h, State.overflow_receiveSide]
  · rw [h, State.encoded_receiveSide]

/-- R111: what WRITE does after ENC.BUF: a failure, nothing to send, or a hand-off. -/
@[simp] theorem transmit_receiveSide : (transmit s).receiveSide = s.receiveSide := by
  obtain ⟨-, h⟩ | ⟨-, -, -, h⟩ | ⟨-, -, h⟩ := transmit_cases s
  · rw [h, State.wrote_receiveSide]
  · rw [h, State.wroteNothing_receiveSide]
  · rw [h, State.handOff_receiveSide]

end ReceiveSide

/-- Settles O51: each of the four operations answers an update, named by its inversion lemma, that keeps the receive
side. -/
theorem transmitSideLeavesTheReceiveSide : Obligations.TransmitSideLeavesTheReceiveSide := by
  intro b bytes d bp cap i s t hi h
  rw [← State.receiveSide_eq_iff]
  simp only [List.mem_cons, List.not_mem_nil, or_false] at hi
  obtain rfl | rfl | rfl | rfl := hi
  · obtain ⟨-, rfl⟩ := execEncByte_next.1 h; rw [State.encoded_receiveSide]
  · obtain ⟨-, rfl⟩ := execEncBuf_next.1 h; rw [encodeBuffer_receiveSide]
  · obtain ⟨-, -, rfl⟩ := execQuant_next.1 h; rw [State.quantized_receiveSide]
  · obtain ⟨-, rfl⟩ := execWrite_next.1 h; rw [transmit_receiveSide, encodeBuffer_receiveSide]

section TransmitSide

/-- The transmit side of a channel: the encoder's output and result, the last span, the result of the last WRITE, the
hand-offs, the line, the reports still to come, and the counter of WRITEs not sent. -/
def State.transmitSide (s : State) :
    List Pair × EncResult × Nat × WriteResult × List Handoff × List Segment × List TxReport × Nat :=
  (s.txPairs, s.encResult, s.span, s.writeResult, s.handoffs, s.line, s.txReports, s.unsent)

theorem State.transmitSide_eq_iff {s t : State} :
    t.transmitSide = s.transmitSide ↔
      t.txPairs = s.txPairs ∧ t.encResult = s.encResult ∧ t.span = s.span ∧ t.writeResult = s.writeResult ∧
        t.handoffs = s.handoffs ∧ t.line = s.line ∧ t.txReports = s.txReports ∧ t.unsent = s.unsent := by
  simp only [transmitSide, Prod.mk.injEq]

variable (s : State)

@[simp] theorem State.decoded_transmitSide (st : DecoderState) (items : List Item) :
    (s.decoded st items).transmitSide = s.transmitSide := rfl
@[simp] theorem State.initDecoder_transmitSide : s.initDecoder.transmitSide = s.transmitSide := rfl
@[simp] theorem State.delivered_transmitSide (max : Nat) (bytes : List Byte) (captures : List (List Segment)) :
    (s.delivered max bytes captures).transmitSide = s.transmitSide := rfl
@[simp] theorem State.timedOut_transmitSide (captures : List (List Segment)) :
    (s.timedOut captures).transmitSide = s.transmitSide := rfl

end TransmitSide

/-- Settles O52: each of the four operations answers an update, named by its inversion lemma, that keeps the transmit
side; a READ times out, or delivers what it decoded. -/
theorem receiveSideLeavesTheTransmitSide : Obligations.ReceiveSideLeavesTheTransmitSide := by
  intro seg segs bp max timeout i s t hi h
  rw [← State.transmitSide_eq_iff]
  simp only [List.mem_cons, List.not_mem_nil, or_false] at hi
  obtain rfl | rfl | rfl | rfl := hi
  · obtain ⟨-, -, -, -, rfl⟩ := execDecSeg_next.1 h; rw [State.decoded_transmitSide]
  · obtain ⟨-, -, a, -, rfl⟩ := execDecBatch_next.1 h; rw [State.decoded_transmitSide]
  · obtain ⟨-, rfl⟩ := execDecInit_next.1 h; rw [State.initDecoder_transmitSide]
  · obtain ⟨-, ⟨-, rfl⟩ | ⟨-, r, -, rfl⟩⟩ := execRead_next.1 h
    · rw [State.timedOut_transmitSide]
    · rw [State.decoded_transmitSide, State.delivered_transmitSide]

end Sys2Proof.Machine

/-! The invariant of the machine: it holds at reset, every update of Laws/State.lean keeps it, and so does every
operation, which is one or two updates by its inversion lemma of Laws/System.lean (spec/10_state.md R11, R13). -/

namespace Sys2Proof.Machine

/-- R5, R50: a segment as long as a legal bit period. -/
theorem segmentLegal_of_duration_eq {p : Params} {bp : Nat} {seg : Segment} (hbp : BpLegal p bp)
    (h : seg.duration = bp) : SegmentLegal p seg := by
  rw [SegmentLegal, h]
  exact hbp.2

section UpdatesKeepTheInvariant

variable {s : State}

/-- R33, R50: a successful encode keeps the invariant where its output is frame-aligned and representable. -/
theorem State.Inv.encoded (h : s.Inv) {pairs : List Pair} (hlen : pairs.length % 5 = 0)
    (hdur : ∀ seg ∈ flat pairs, SegmentLegal s.params seg) : (s.encoded pairs).Inv :=
  { h with frames := hlen, representable := hdur, allOrNothing := nofun }

/-- R34, R121. -/
theorem State.Inv.overflow (h : s.Inv) : s.overflow.Inv :=
  { h with frames := rfl, representable := nofun, allOrNothing := fun _ => rfl }

theorem State.Inv.quantized (h : s.Inv) (n : Nat) : (s.quantized n).Inv := { h with }

/-- R13, R134: a decode keeps the invariant where it ends in a legal DecoderState. -/
theorem State.Inv.decoded (h : s.Inv) {st : DecoderState} (hst : st.Legal) (items : List Item) :
    (s.decoded st items).Inv :=
  { h with decoder := hst, tail := List.suffix_append s.trace items }

theorem State.Inv.initDecoder (h : s.Inv) : s.initDecoder.Inv := { h with decoder := fresh_legal }

theorem State.Inv.wrote (h : s.Inv) (r : WriteResult) : (s.wrote r).Inv := { h with }

theorem State.Inv.wroteNothing (h : s.Inv) : s.wroteNothing.Inv := { h with }

/-- R111: the one update that makes a hand-off asks the capability to wait. -/
theorem State.Inv.handOff (h : s.Inv) (r : TxReport) : (s.handOff r).Inv :=
  { h with
    waits := by
      simp only [State.handOff_handoffs, List.mem_append, List.mem_singleton]
      rintro x (hx | rfl)
      · exact h.waits x hx
      · rfl }

/-- R112. -/
theorem State.Inv.delivered (h : s.Inv) (max : Nat) (bytes : List Byte) (captures : List (List Segment)) :
    (s.delivered max bytes captures).Inv :=
  { h with held := fun hx => (State.delivered_held_of_ne s max bytes captures hx).trans (h.held hx) }

theorem State.Inv.timedOut (h : s.Inv) (captures : List (List Segment)) : (s.timedOut captures).Inv :=
  { h with tail := List.nil_suffix }

theorem State.Inv.consume (h : s.Inv) (rest : List Byte) : (s.consume rest).Inv := { h with }

/-- R33, R34, R70: ENC.BUF writes five pairs to a byte, each of the bit period, or nothing. -/
theorem State.Inv.encodeBuffer (h : s.Inv) (bytes : List Byte) {bp : Nat} (hbp : BpLegal s.params bp) (cap : Nat) :
    (encodeBuffer bytes bp cap s).Inv := by
  obtain ⟨-, e⟩ | ⟨-, e⟩ := encodeBuffer_cases bytes bp cap s <;> rw [e]
  · exact h.overflow
  · exact h.encoded (by rw [encodeBytes_length, Nat.mul_mod_right]) fun seg hseg =>
      segmentLegal_of_duration_eq hbp (flat_encodeBytes_duration bytes bp seg hseg)

theorem State.Inv.transmit (h : s.Inv) : (transmit s).Inv := by
  obtain ⟨-, e⟩ | ⟨-, -, -, e⟩ | ⟨-, -, e⟩ := transmit_cases s <;> rw [e]
  · exact h.wrote _
  · exact h.wroteNothing
  · exact h.handOff _

/-- Every operation keeps the invariant. -/
theorem State.Inv.exec (h : s.Inv) {i : Instr} {t : State} (he : exec i s = .next t) : t.Inv := by
  cases i with
  | encByte b bp =>
    obtain ⟨hbp, rfl⟩ := execEncByte_next.1 he
    exact h.encoded (by rw [encodeByte_length]) fun seg hseg =>
      segmentLegal_of_duration_eq hbp (flat_encodeByte_duration b bp seg hseg)
  | encBuf bytes bp cap =>
    obtain ⟨hbp, rfl⟩ := execEncBuf_next.1 he
    exact h.encodeBuffer bytes hbp cap
  | quant d bp =>
    obtain ⟨-, -, rfl⟩ := execQuant_next.1 he
    exact h.quantized _
  | decSeg seg bp =>
    obtain ⟨-, -, -, hl, rfl⟩ := execDecSeg_next.1 he
    exact h.decoded (segmentStep_legal bp seg hl) _
  | decBatch segs bp =>
    obtain ⟨-, -, r, hr, rfl⟩ := execDecBatch_next.1 he
    exact h.decoded (decodeAll_legal hr h.decoder) _
  | decInit =>
    obtain ⟨-, rfl⟩ := execDecInit_next.1 he
    exact h.initDecoder
  | write bytes bp cap =>
    obtain ⟨hbp, rfl⟩ := execWrite_next.1 he
    exact (h.encodeBuffer bytes hbp cap).transmit
  | read max timeout bp =>
    obtain ⟨-, ⟨-, rfl⟩ | ⟨-, r, hr, rfl⟩⟩ := execRead_next.1 he
    · exact h.timedOut _
    · obtain ⟨⟨used, hused⟩, -, -⟩ := readBatches_ok hr
      exact (h.delivered _ _ _).decoded (decodeAll_legal hused h.decoder) _

end UpdatesKeepTheInvariant

/-- Settles O9: a step changes nothing, or takes a request off the front and runs its operation. -/
theorem everyStepKeepsTheInvariant : Obligations.EveryStepKeepsTheInvariant := by
  intro s t h hstep
  obtain ⟨-, rfl⟩ | ⟨i, rest, -, -, he⟩ := step_next.1 hstep
  · exact h
  · exact (h.consume rest).exec he

/-- Settles O7: the values are those that `State.reset` names. -/
theorem resetIsAFreshChannel : Obligations.ResetIsAFreshChannel :=
  ⟨rfl, rfl, rfl, rfl, rfl, rfl, rfl⟩

/-- Settles O8: the DecoderState is the fresh one, and every sequence the invariant speaks of is empty. -/
theorem invariantHoldsAtReset : Obligations.InvariantHoldsAtReset where
  width := by decide
  decoder := fresh_legal
  frames := rfl
  representable := nofun
  allOrNothing := nofun
  tail := List.suffix_rfl
  held := fun _ => rfl
  waits := nofun

end Sys2Proof.Machine

/-! How `BITPOS = 10` is entered and left (spec/10_state.md R11, R12, spec/42_decoder.md R96). What an operation does to
the DecoderState and the trace is said once, `exec_decoder_cases`: nothing, a decode of some segments, or DEC.INIT. -/

namespace Sys2Proof.Machine

theorem fresh_not_wedged : ¬ DecoderState.fresh.Wedged := by decide

theorem ofNat_bitpos_ne_ten {n : Nat} (h : n ≤ 9) : BitVec.ofNat 4 n ≠ 10 := by
  rw [Ne, bitpos_eq_ten, toNat_ofNat_bitpos (by omega)]; omega

/-- R94, R98: a segment that takes a legal state to WEDGED puts out a MissingStopBit. -/
theorem segmentStep_enters_wedged {bp : Nat} {seg : Segment} {st : DecoderState} (h : st.Legal) (hn : ¬ st.Wedged)
    (hw : (segmentStep bp seg st).1.Wedged) : .missingStopBit ∈ events (segmentStep bp seg st).2 := by
  rcases segmentStep_cases bp seg st h with
    ⟨-, e⟩ | ⟨-, -, -, e⟩ | ⟨-, -, -, e⟩ | ⟨-, -, hle, -, e⟩ | ⟨-, -, -, -, e⟩ | ⟨-, hle, -, e⟩ | ⟨-, -, -, e⟩ <;>
    rw [e] at hw ⊢
  · exact absurd hw hn
  · exact absurd hw hn
  · exact absurd hw hn
  · exact absurd hw (ofNat_bitpos_ne_ten hle)
  · exact absurd hw fresh_not_wedged
  · exact absurd hw (ofNat_bitpos_ne_ten hle)
  · exact List.mem_singleton.2 rfl

/-- A batch that ends WEDGED and did not start so has a segment that puts out a MissingStopBit. -/
theorem decodeAll_enters_wedged {p : Params} {bp : Nat} {segs : List Segment} {st : DecoderState}
    {r : DecoderState × List Item} (h : decodeAll p bp segs st = .ok r) (hn : ¬ st.Wedged) (hw : r.1.Wedged) :
    .missingStopBit ∈ events r.2 := by
  induction segs generalizing st r with
  | nil => cases h; exact absurd hw hn
  | cons seg segs ih =>
    obtain ⟨a, ha, b, hb, rfl⟩ := decodeAll_cons_eq_ok.1 h
    rw [events_append, List.mem_append]
    by_cases hmid : a.1.Wedged
    · obtain ⟨-, -, hl, rfl⟩ := decodeSegment_eq_ok.1 ha
      exact .inl (segmentStep_enters_wedged hl hn hmid)
    · exact .inr (ih hb hmid hw)

/-- What is decoded between two states, and where it stands: the DecoderState, the output, and the end of the trace
(R134). -/
def DecodesSegments (s t : State) : Prop :=
  ∃ bp segs r, decodeAll s.params bp segs s.dec = .ok r ∧ t.dec = r.1 ∧ t.decOut = r.2 ∧ t.trace = s.trace ++ r.2

/-- DEC.SEG is the decode of its one segment. -/
theorem decodeAll_singleton {p : Params} {bp : Nat} {seg : Segment} {st : DecoderState} (h1 : BpLegal p bp)
    (h2 : SegmentLegal p seg) (h3 : st.Legal) : decodeAll p bp [seg] st = .ok (segmentStep bp seg st) :=
  decodeAll_cons_eq_ok.2 ⟨_, decodeSegment_ok h1 h2 h3, _, rfl, by rw [List.append_nil]⟩

theorem State.dec_trace_of_receiveSide {s t : State} (h : t.receiveSide = s.receiveSide) :
    t.dec = s.dec ∧ t.trace = s.trace :=
  have ⟨hdec, _, htrace, _⟩ := State.receiveSide_eq_iff.1 h
  ⟨hdec, htrace⟩

/-- Everything an operation can do to the DecoderState and the trace. -/
theorem exec_decoder_cases {i : Instr} {s t : State} (h : exec i s = .next t) :
    (t.dec = s.dec ∧ t.trace = s.trace) ∨ DecodesSegments s t ∨
      (i = .decInit ∧ t.dec = DecoderState.fresh ∧ t.trace = s.trace) := by
  cases i with
  | encByte b bp =>
    obtain ⟨-, rfl⟩ := execEncByte_next.1 h
    exact .inl (State.dec_trace_of_receiveSide (s.encoded_receiveSide _))
  | encBuf bytes bp cap =>
    obtain ⟨-, rfl⟩ := execEncBuf_next.1 h
    exact .inl (State.dec_trace_of_receiveSide (encodeBuffer_receiveSide s bytes bp cap))
  | quant d bp =>
    obtain ⟨-, -, rfl⟩ := execQuant_next.1 h
    exact .inl (State.dec_trace_of_receiveSide (s.quantized_receiveSide _))
  | decSeg seg bp =>
    obtain ⟨-, hbp, hseg, hl, rfl⟩ := execDecSeg_next.1 h
    exact .inr (.inl ⟨bp, [seg], _, decodeAll_singleton hbp hseg hl, rfl, rfl, rfl⟩)
  | decBatch segs bp =>
    obtain ⟨-, -, r, hr, rfl⟩ := execDecBatch_next.1 h
    exact .inr (.inl ⟨bp, segs, r, hr, rfl, rfl, rfl⟩)
  | decInit =>
    obtain ⟨-, rfl⟩ := execDecInit_next.1 h
    exact .inr (.inr ⟨rfl, rfl, rfl⟩)
  | write bytes bp cap =>
    obtain ⟨-, rfl⟩ := execWrite_next.1 h
    exact .inl (State.dec_trace_of_receiveSide
      ((transmit_receiveSide _).trans (encodeBuffer_receiveSide s bytes bp cap)))
  | read max timeout bp =>
    obtain ⟨-, ⟨-, rfl⟩ | ⟨-, r, hr, rfl⟩⟩ := execRead_next.1 h
    · exact .inl ⟨rfl, rfl⟩
    · obtain ⟨⟨used, hused⟩, -, -⟩ := readBatches_ok hr
      exact .inr (.inl ⟨bp, used, _, hused, rfl, rfl, rfl⟩)

/-- Settles O54: of the three things an operation can do, only a decode enters WEDGED, and a decode that starts there
does nothing; only DEC.INIT leaves it. -/
theorem wedgedIsEnteredAndLeftOnlyAsStated : Obligations.WedgedIsEnteredAndLeftOnlyAsStated := by
  refine ⟨fun i s t h hn hw => ?_, fun i s t h hw hi => ?_⟩
  · obtain ⟨hdec, -⟩ | ⟨bp, segs, r, hr, hdec, hout, -⟩ | ⟨-, hdec, -⟩ := exec_decoder_cases h <;> rw [hdec] at hw
    · exact absurd hw hn
    · rw [hout]; exact decodeAll_enters_wedged hr hn hw
    · exact absurd hw fresh_not_wedged
  · obtain hkeep | ⟨bp, segs, r, hr, hdec, -, htrace⟩ | ⟨hinit, -⟩ := exec_decoder_cases h
    · exact hkeep
    · obtain rfl := decodeAll_wedged hr hw
      exact ⟨hdec, by rw [htrace, List.append_nil]⟩
    · exact absurd hinit hi

end Sys2Proof.Machine

/-! The round trip over the line (spec/20_memory.md R41 to R44, spec/42_decoder.md R102): a frame of a byte, each bit one
bit period long, is recorded bit by bit and completes as that byte; so the inverted output of the encoder decodes to the
bytes it encodes, and a READ of it returns them. -/

namespace Sys2Proof.Machine

section Frames

theorem frameOf_getLsbD_zero (b : Byte) : (frameOf b).getLsbD 0 = false := by
  simp [frameOf]

theorem frameOf_getLsbD_nine (b : Byte) : (frameOf b).getLsbD 9 = true := by
  simp [frameOf]

/-- R53: data bit `m` is slot `m + 1`. -/
theorem frameOf_getLsbD_succ (b : Byte) {m : Nat} (h : m < 8) : (frameOf b).getLsbD (m + 1) = b.getLsbD m := by
  have stop : (0b1000000000#10).getLsbD (m + 1) = false :=
    (ones_getLsbD 9 1 (m + 1) (by omega) (by omega)).trans (by simp; omega)
  rw [frameOf, BitVec.getLsbD_or, stop, Bool.or_false]
  simp [show m + 1 < 10 by omega]

/-- R54: the byte of a frame undoes the frame of the byte. -/
theorem byteOf_frameOf (b : Byte) : byteOf (frameOf b) = b := by
  apply BitVec.eq_of_getLsbD_eq
  intro m hm
  rw [byteOf_getLsbD _ _ hm, frameOf_getLsbD_succ b hm]

/-- The accumulator once the slots below `k` of the frame `v` are recorded. -/
def recorded (v : BitVec 10) (k : Nat) : BitVec 10 := v &&& ones 0 k

theorem recorded_zero (v : BitVec 10) : recorded v 0 = 0 := by
  simp [recorded]

theorem recorded_ten (v : BitVec 10) : recorded v 10 = v := BitVec.and_allOnes

theorem recorded_getLsbD (v : BitVec 10) {k j : Nat} (hk : k ≤ 10) (hj : j < 10) :
    (recorded v k).getLsbD j = (v.getLsbD j && decide (j < k)) := by
  simp [recorded, ones_getLsbD 0 k j (by omega) hj]

/-- R105: recording the next slot of a frame. -/
theorem record_recorded (v : BitVec 10) {k : Nat} (hk : k < 10) :
    record (recorded v k) k (v.getLsbD k) = recorded v (k + 1) := by
  apply BitVec.eq_of_getLsbD_eq
  intro j hj
  rw [recorded_getLsbD v hk hj]
  cases hbit : v.getLsbD k with
  | false =>
    rw [record_low, recorded_getLsbD v hk.le hj]
    obtain rfl | hne := eq_or_ne j k
    · simp [hbit]
    · rw [decide_eq_decide.2 (show j < k ↔ j < k + 1 by omega)]
  | true =>
    rw [record_high _ _ hk, BitVec.getLsbD_or, recorded_getLsbD v hk.le hj, ones_getLsbD k 1 j hk hj]
    obtain rfl | hne := eq_or_ne j k
    · simp [hbit]
    · simp [show j < k + 1 ↔ j < k by omega]

end Frames

section Line

variable {p : Params} {bp : Nat}

/-- R82: one bit period is one slot. -/
theorem spanOf_bp (hbp : 0 < bp) (l : Level) (st : DecoderState) : spanOf bp ⟨bp, l⟩ st = 1 := by
  have one : rhu bp bp = 1 := by
    rw [rhu, Nat.div_eq_iff (by omega)]; omega
  simp [spanOf, one]

/-- A segment of one bit period in an open frame is one slot. -/
theorem segmentStep_bp (hbp : 0 < bp) (l : Level) {st : DecoderState} (h : st.bitpos.toNat ≤ 9) :
    segmentStep bp ⟨bp, l⟩ st = slots l 1 st := by
  rw [segmentStep, if_neg (by rw [bitpos_eq_ten]; omega), spanOf_bp hbp]

/-- R93, R105: before slot 9 it is recorded. -/
theorem segmentStep_bp_record (hbp : 0 < bp) {l : Level} {st : DecoderState} (h : st.bitpos.toNat < 9)
    (hl : l = true → st.bitpos ≠ 0) :
    segmentStep bp ⟨bp, l⟩ st = (⟨st.bitpos + 1, record st.acc st.bitpos.toNat l⟩, []) := by
  rw [segmentStep_bp hbp l h.le, slots, slotStep_fill h hl]
  rfl

/-- R95: in slot 9 a high one completes the byte. -/
theorem segmentStep_bp_complete (hbp : 0 < bp) {st : DecoderState} (h : st.bitpos.toNat = 9) :
    segmentStep bp ⟨bp, true⟩ st = (.fresh, [.byte (byteOf (record st.acc 9 true))]) := by
  rw [segmentStep_bp hbp true h.le, slots, slotStep_complete h]
  rfl

/-- R42, R70: what the line carries of bit `j` of the frame `v`. -/
def lineSegment (v : BitVec 10) (bp j : Nat) : Segment := ⟨bp, v.getLsbD j⟩

theorem inv_flat_encodeByte (b : Byte) (bp : Nat) :
    inv (flat (encodeByte b bp)) = (List.range 10).map (lineSegment (frameOf b) bp) := by
  rw [flat_encodeByte, inv, List.map_map]
  exact List.map_congr_left fun j _ => by simp [invSegment, txSegment, lineSegment, frameBit]

/-- R93: the slots before the stop bit are recorded, and nothing is put out. -/
theorem decodeAll_lineSegments (hbp : BpLegal p bp) {v : BitVec 10} (start : v.getLsbD 0 = false) {k : Nat}
    (hk : k ≤ 9) :
    decodeAll p bp ((List.range k).map (lineSegment v bp)) .fresh = .ok (⟨BitVec.ofNat 4 k, recorded v k⟩, []) := by
  induction k with
  | zero => rw [recorded_zero]; rfl
  | succ k ih =>
    have hprev := ih (by omega)
    have hpos : (BitVec.ofNat 4 k).toNat = k := toNat_ofNat_bitpos (by omega)
    have hstart : v.getLsbD k = true → BitVec.ofNat 4 k ≠ 0 := by
      rw [Ne, bitpos_eq_zero, hpos]; rintro h rfl; exact absurd h (by rw [start]; decide)
    have hseg : segmentStep bp (lineSegment v bp k) ⟨BitVec.ofNat 4 k, recorded v k⟩ =
        (⟨BitVec.ofNat 4 (k + 1), recorded v (k + 1)⟩, []) := by
      rw [lineSegment, segmentStep_bp_record hbp.1 (by dsimp only; omega) hstart, hpos,
        record_recorded v (by omega), BitVec.ofNat_add]
      rfl
    rw [List.range_succ, List.map_append]
    exact decodeAll_append_eq_ok.2 ⟨_, hprev, _,
      decodeAll_singleton hbp hbp.2 (decodeAll_legal hprev fresh_legal), by rw [hseg]; rfl⟩

/-- R95, R102: the line's frame of a byte completes as that byte. -/
theorem decodeAll_inv_flat_encodeByte (hbp : BpLegal p bp) (b : Byte) :
    decodeAll p bp (inv (flat (encodeByte b bp))) .fresh = .ok (.fresh, [.byte b]) := by
  have hnine := decodeAll_lineSegments hbp (frameOf_getLsbD_zero b) (le_refl 9)
  have hstop : segmentStep bp (lineSegment (frameOf b) bp 9) ⟨BitVec.ofNat 4 9, recorded (frameOf b) 9⟩ =
      (.fresh, [.byte b]) := by
    have hframe := record_recorded (frameOf b) (show 9 < 10 by omega)
    rw [frameOf_getLsbD_nine, recorded_ten] at hframe
    rw [lineSegment, frameOf_getLsbD_nine, segmentStep_bp_complete hbp.1 rfl, hframe, byteOf_frameOf]
  rw [inv_flat_encodeByte, List.range_succ, List.map_append]
  exact decodeAll_append_eq_ok.2 ⟨_, hnine, _,
    decodeAll_singleton hbp hbp.2 (decodeAll_legal hnine fresh_legal), by rw [hstop]; rfl⟩

/-- R102: the round trip of a byte sequence. -/
theorem decodeAll_inv_flat_encodeBytes (hbp : BpLegal p bp) (bytes : List Byte) :
    decodeAll p bp (inv (flat (encodeBytes bytes bp))) .fresh = .ok (.fresh, bytes.map .byte) := by
  induction bytes with
  | nil => rfl
  | cons b bytes ih =>
    rw [encodeBytes_cons, flat_append, inv_append]
    exact decodeAll_append_eq_ok.2 ⟨_, decodeAll_inv_flat_encodeByte hbp b, _, ih, rfl⟩

theorem inv_flat_encodeBytes_ne_nil {bytes : List Byte} (h : bytes ≠ []) (bp : Nat) :
    inv (flat (encodeBytes bytes bp)) ≠ [] := by
  obtain ⟨b, bytes, rfl⟩ := List.exists_cons_of_ne_nil h
  rw [encodeBytes_cons, flat_append, inv_append, inv_flat_encodeByte]
  nofun

theorem segmentLegal_inv_flat_encodeBytes (hbp : BpLegal p bp) (bytes : List Byte) :
    ∀ seg ∈ inv (flat (encodeBytes bytes bp)), SegmentLegal p seg := by
  intro seg h
  obtain ⟨sent, hsent, rfl⟩ := List.mem_map.1 h
  exact segmentLegal_of_duration_eq hbp (flat_encodeBytes_duration bytes bp sent hsent)

end Line

theorem rxBytes_map_byte (bytes : List Byte) : rxBytes (bytes.map .byte) = bytes := by
  simp [rxBytes, List.filterMap_map, Function.comp_def, Item.byte?]

theorem events_map_byte (bytes : List Byte) : events (bytes.map .byte) = [] := by
  simp [events, List.filterMap_map, Function.comp_def, Item.event?]

/-- R111, R42: a WRITE that fits, of at least one byte, with a transmit capability that completes. -/
theorem execWrite_completed {bytes : List Byte} {bp cap : Nat} {s t : State} {reports : List TxReport}
    (hne : bytes ≠ []) (hcap : 10 * bytes.length ≤ cap) (hrep : s.txReports = .completed :: reports)
    (h : exec (.write bytes bp cap) s = .next t) :
    t.writeResult = .success ∧ t.line = s.line ++ inv (flat (encodeBytes bytes bp)) := by
  obtain ⟨-, rfl⟩ := execWrite_next.1 h
  obtain ⟨hover, -⟩ | ⟨-, henc⟩ := encodeBuffer_cases bytes bp cap s
  · omega
  rw [henc]
  have hpairs : encodeBytes bytes bp ≠ [] := fun hnil =>
    inv_flat_encodeBytes_ne_nil hne bp (by rw [hnil]; rfl)
  obtain ⟨hover, -⟩ | ⟨-, hnil, -⟩ | ⟨-, -, htx⟩ := transmit_cases (s.encoded (encodeBytes bytes bp))
  · cases hover
  · exact absurd hnil hpairs
  · have hreport : (s.encoded (encodeBytes bytes bp)).nextReport = .completed := by
      simp [State.nextReport, hrep]
    rw [htx, hreport]
    exact ⟨rfl, rfl⟩

/-- The receives of a READ to which one batch comes: its first segments are decoded, and segments are left only where
the room is used up. -/
theorem readBatches_singleton {p : Params} {bp room : Nat} {batch : List Segment} {st : DecoderState}
    {r : DecoderState × List Item × List (List Segment)} (hne : batch ≠ [])
    (h : readBatches p bp [batch] room st = .ok r) :
    ∃ used left, batch = used ++ left ∧ decodeAll p bp used st = .ok (r.1, r.2.1) ∧
      (left ≠ [] → (rxBytes r.2.1).length = room) := by
  cases batch with
  | nil => exact absurd rfl hne
  | cons seg segs =>
    rw [readBatches] at h
    cases ha : readBatch p bp room (seg :: segs) st with
    | error e => rw [ha] at h; cases h
    | ok a =>
      obtain ⟨st', items, left⟩ := a
      obtain ⟨-, used, hsplit, hdec, hwhole, hstop⟩ := readBatch_ok ha
      have hr : r.1 = st' ∧ r.2.1 = items := by
        rw [ha] at h
        dsimp only [readBatches] at h
        split at h <;> cases h
        · exact ⟨rfl, rfl⟩
        · exact ⟨rfl, List.append_nil items⟩
      rw [hr.1, hr.2]
      refine ⟨used, left, hsplit, hdec, fun hleft => ?_⟩
      by_cases hx : p.readExcess = .stopEarly
      · exact (hstop hx).2.1 hleft
      · exact absurd (hwhole hx) hleft

/-- Some first segments of a batch that decodes to bytes alone: where they yield all the bytes or are all the segments,
their output is those bytes. -/
theorem decodeAll_first_of_bytes {p : Params} {bp : Nat} {used left : List Segment} {st st' : DecoderState}
    {r : DecoderState × List Item} {bytes : List Byte} (hall : decodeAll p bp (used ++ left) st = .ok (st', bytes.map .byte))
    (hused : decodeAll p bp used st = .ok r) (hlen : left ≠ [] → bytes.length ≤ (rxBytes r.2).length) :
    r.2 = bytes.map .byte := by
  obtain ⟨a, ha, b, hb, hsum⟩ := decodeAll_append_eq_ok.1 hall
  obtain rfl : r = a := Except.ok.inj (hused.symm.trans ha)
  have hitems : bytes.map .byte = r.2 ++ b.2 := congrArg Prod.snd hsum
  suffices hb2 : b.2 = [] by rw [hitems, hb2, List.append_nil]
  by_cases hleft : left = []
  · subst hleft; cases hb; rfl
  · have hle : r.2.length ≥ bytes.length := (hlen hleft).trans (List.length_filterMap_le _ _)
    have := congrArg List.length hitems
    rw [List.length_map, List.length_append] at this
    exact List.length_eq_zero_iff.1 (by omega)

/-- Settles O47: the line holds the inverted frames, which decode to the bytes alone; the READ decodes all of them, or,
where it stops early, as many as yield the bytes. -/
theorem writtenBytesAreReadBack : Obligations.WrittenBytesAreReadBack := by
  intro bytes bp cap max timeout tx w rx reports hne hcap hmax hbp hline hrep hw hcont hdec hcapt hheld
  obtain ⟨hsuccess, hwline⟩ := execWrite_completed hne hcap hrep hw
  rw [hline, List.nil_append] at hwline
  rw [hwline] at hcapt
  have hline_ne := inv_flat_encodeBytes_ne_nil hne bp
  obtain ⟨seg, segs, hbatch⟩ := List.exists_cons_of_ne_nil hline_ne
  have hlegal : ∀ batch ∈ rx.captures, ∀ seg ∈ batch, SegmentLegal rx.params seg := by
    simpa only [hcapt, List.mem_singleton, forall_eq] using segmentLegal_inv_flat_encodeBytes hbp bytes
  obtain ⟨r, hr⟩ := readBatches_completes hbp rx.captures hlegal (max - rx.kept.length) rx.dec (hdec ▸ fresh_legal)
  have hkept := State.kept_of_held_nil rx hheld
  have hout : r.2.1 = bytes.map .byte := by
    rw [hcapt, hkept, hdec] at hr
    obtain ⟨used, left, hsplit, hused, hleft⟩ := readBatches_singleton hline_ne hr
    exact decodeAll_first_of_bytes (hsplit ▸ decodeAll_inv_flat_encodeBytes hbp bytes) hused
      fun h => by simpa [hleft h] using hmax
  refine ⟨_, execRead_next.2 ⟨hcont, .inr ⟨⟨seg, segs, [], by rw [hcapt, hbatch]⟩, r, hr, rfl⟩⟩, hsuccess, ?_, ?_⟩
  · rw [State.decoded_readBytes, State.delivered_readBytes, hkept, hout, rxBytes_map_byte, List.nil_append,
      List.take_of_length_le hmax]
  · rw [State.decoded_decOut, hout, events_map_byte]

end Sys2Proof.Machine

/-! Operations that do not meet (spec/20_memory.md R38, spec/60_exceptions.md R133): those of the two sides of one
channel, and the steps of two channels. -/

namespace Sys2Proof.Machine

section TwoSides

/-- The operations of the transmit side (R38). -/
def OnTransmitSide : Instr → Prop
  | .encByte _ _ | .encBuf _ _ _ | .quant _ _ | .write _ _ _ => True
  | _ => False

/-- The operations of the receive side (R38). -/
def OnReceiveSide : Instr → Prop
  | .decSeg _ _ | .decBatch _ _ | .decInit | .read _ _ _ => True
  | _ => False

/-- The state `s` with the transmit side of `u`. -/
def State.withTransmitSide (s u : State) : State :=
  { s with
    txPairs := u.txPairs, encResult := u.encResult, span := u.span, writeResult := u.writeResult
    handoffs := u.handoffs, line := u.line, txReports := u.txReports, unsent := u.unsent }

/-- The state `s` with the receive side of `u`. -/
def State.withReceiveSide (s u : State) : State :=
  { s with
    dec := u.dec, decOut := u.decOut, trace := u.trace, readBytes := u.readBytes, held := u.held
    captures := u.captures }

theorem encodeBuffer_withTransmitSide (bytes : List Byte) (bp cap : Nat) (s : State) :
    encodeBuffer bytes bp cap s = s.withTransmitSide (encodeBuffer bytes bp cap s) := by
  obtain ⟨-, h⟩ | ⟨-, h⟩ := encodeBuffer_cases bytes bp cap s <;> rw [h] <;> rfl

theorem transmit_withTransmitSide (s : State) : transmit s = s.withTransmitSide (transmit s) := by
  obtain ⟨-, h⟩ | ⟨-, -, -, h⟩ | ⟨-, -, h⟩ := transmit_cases s <;> rw [h] <;> rfl

theorem encodeBuffer_withReceiveSide (bytes : List Byte) (bp cap : Nat) (s u : State) :
    encodeBuffer bytes bp cap (s.withReceiveSide u) = (encodeBuffer bytes bp cap s).withReceiveSide u := by
  unfold encodeBuffer
  split <;> rfl

theorem transmit_withReceiveSide (s u : State) : transmit (s.withReceiveSide u) = (transmit s).withReceiveSide u := by
  unfold transmit
  simp only [apply_ite (State.withReceiveSide · u)]
  rfl

/-- R2, R38: an operation of the transmit side changes that side alone, and does the same to it whatever the receive
side holds. -/
theorem exec_of_onTransmitSide {i : Instr} {s t : State} (hi : OnTransmitSide i) (h : exec i s = .next t) :
    t = s.withTransmitSide t ∧ ∀ u, exec i (s.withReceiveSide u) = .next (t.withReceiveSide u) := by
  cases i with
  | encByte b bp =>
    obtain ⟨hbp, rfl⟩ := execEncByte_next.1 h
    exact ⟨rfl, fun u => execEncByte_next.2 ⟨hbp, rfl⟩⟩
  | encBuf bytes bp cap =>
    obtain ⟨hbp, rfl⟩ := execEncBuf_next.1 h
    exact ⟨encodeBuffer_withTransmitSide .., fun u =>
      execEncBuf_next.2 ⟨hbp, (encodeBuffer_withReceiveSide ..).symm⟩⟩
  | quant d bp =>
    obtain ⟨hbp, hd, rfl⟩ := execQuant_next.1 h
    exact ⟨rfl, fun u => execQuant_next.2 ⟨hbp, hd, rfl⟩⟩
  | write bytes bp cap =>
    obtain ⟨hbp, rfl⟩ := execWrite_next.1 h
    refine ⟨?_, fun u => execWrite_next.2 ⟨hbp, ?_⟩⟩
    · rw [transmit_withTransmitSide (encodeBuffer bytes bp cap s), encodeBuffer_withTransmitSide bytes bp cap s]
      rfl
    · rw [encodeBuffer_withReceiveSide, transmit_withReceiveSide]
  | decSeg | decBatch | decInit | read => exact hi.elim

/-- R2, R38: an operation of the receive side changes that side alone, and does the same to it whatever the transmit
side holds. -/
theorem exec_of_onReceiveSide {i : Instr} {s t : State} (hi : OnReceiveSide i) (h : exec i s = .next t) :
    t = s.withReceiveSide t ∧ ∀ u, exec i (s.withTransmitSide u) = .next (t.withTransmitSide u) := by
  cases i with
  | decSeg seg bp =>
    obtain ⟨hc, hbp, hseg, hl, rfl⟩ := execDecSeg_next.1 h
    exact ⟨rfl, fun u => execDecSeg_next.2 ⟨hc, hbp, hseg, hl, rfl⟩⟩
  | decBatch segs bp =>
    obtain ⟨hc, hbp, r, hr, rfl⟩ := execDecBatch_next.1 h
    exact ⟨rfl, fun u => execDecBatch_next.2 ⟨hc, hbp, r, hr, rfl⟩⟩
  | decInit =>
    obtain ⟨hc, rfl⟩ := execDecInit_next.1 h
    exact ⟨rfl, fun u => execDecInit_next.2 ⟨hc, rfl⟩⟩
  | read max timeout bp =>
    obtain ⟨hc, ⟨htime, rfl⟩ | ⟨hcap, r, hr, rfl⟩⟩ := execRead_next.1 h
    · exact ⟨rfl, fun u => execRead_next.2 ⟨hc, .inl ⟨htime, rfl⟩⟩⟩
    · exact ⟨rfl, fun u => execRead_next.2 ⟨hc, .inr ⟨hcap, r, hr, rfl⟩⟩⟩
  | encByte | encBuf | quant | write => exact hi.elim

end TwoSides

/-- Settles O56: in either order the end is the first state with the transmit side that the one operation makes and the
receive side that the other makes. -/
theorem encoderAndDecoderCommute : Obligations.EncoderAndDecoderCommute := by
  intro i j s a b c d hi hj ha hb hc hd
  obtain ⟨hframe_a, hi_any⟩ := exec_of_onTransmitSide hi ha
  obtain ⟨hframe_c, hj_any⟩ := exec_of_onReceiveSide hj hc
  have hb' : b = c.withTransmitSide a := by
    rw [hframe_a, hj_any a] at hb; exact (Host.Outcome.next.inj hb).symm
  have hd' : d = a.withReceiveSide c := by
    rw [hframe_c, hi_any c] at hd; exact (Host.Outcome.next.inj hd).symm
  calc b = (s.withReceiveSide c).withTransmitSide a := by rw [hb', ← hframe_c]
    _ = (s.withTransmitSide a).withReceiveSide c := rfl
    _ = d := by rw [hd', ← hframe_a]

section Channels

variable {k l : Nat} {cs ds a b : Channels}

/-- R133: everything a step of one channel can do to the channels. -/
theorem Channels.step_cases (h : Channels.step k cs = .next a) :
    (cs[k]? = none ∧ a = cs) ∨ ∃ s t, cs[k]? = some s ∧ Machine.step s = .next t ∧ a = cs.set k t := by
  unfold Channels.step at h
  split at h
  · next hk => cases h; exact .inl ⟨hk, rfl⟩
  · next s hk =>
    split at h <;> cases h
    next t ht => exact .inr ⟨s, t, hk, ht, rfl⟩

/-- R38: a step leaves every other channel as it is. -/
theorem Channels.step_other (h : Channels.step k cs = .next a) (hne : k ≠ l) : a[l]? = cs[l]? := by
  obtain ⟨-, rfl⟩ | ⟨s, t, -, -, rfl⟩ := Channels.step_cases h
  · rfl
  · exact List.getElem?_set_ne hne

theorem Channels.step_length (h : Channels.step k cs = .next a) : a.length = cs.length := by
  obtain ⟨-, rfl⟩ | ⟨s, t, -, -, rfl⟩ := Channels.step_cases h
  · rfl
  · exact List.length_set

/-- R133: what a step makes of its own channel depends on that channel alone. -/
theorem Channels.step_own (ha : Channels.step k cs = .next a) (hb : Channels.step k ds = .next b)
    (heq : cs[k]? = ds[k]?) : a[k]? = b[k]? := by
  obtain ⟨hk, rfl⟩ | ⟨s, t, hk, ht, rfl⟩ := Channels.step_cases ha <;>
    obtain ⟨hk', rfl⟩ | ⟨s', t', hk', ht', rfl⟩ := Channels.step_cases hb
  · exact heq
  · rw [hk, hk'] at heq; cases heq
  · rw [hk, hk'] at heq; cases heq
  · obtain rfl : s = s' := Option.some.inj (hk.symm.trans (heq.trans hk'))
    obtain rfl : t = t' := Host.Outcome.next.inj (ht.symm.trans ht')
    rw [List.getElem?_set_self', List.getElem?_set_self', heq]

end Channels

/-- Settles O57: channel by channel: each of the two channels is moved by its own step alone, and the others by none. -/
theorem differentChannelsCommute : Obligations.DifferentChannelsCommute := by
  intro k l cs csk cskl csl cslk hne hk hkl hl hlk
  refine ⟨List.ext_getElem? fun i => ?_, Channels.step_other hk hne, Channels.step_length hk⟩
  obtain rfl | hik := eq_or_ne k i
  · calc cskl[k]? = csk[k]? := Channels.step_other hkl hne.symm
      _ = cslk[k]? := Channels.step_own hk hlk (Channels.step_other hl hne.symm).symm
  obtain rfl | hil := eq_or_ne l i
  · calc cskl[l]? = csl[l]? := Channels.step_own hkl hl (Channels.step_other hk hne)
      _ = cslk[l]? := (Channels.step_other hlk hne).symm
  calc cskl[i]? = csk[i]? := Channels.step_other hkl hil
    _ = cs[i]? := Channels.step_other hk hik
    _ = csl[i]? := (Channels.step_other hl hil).symm
    _ = cslk[i]? := (Channels.step_other hlk hik).symm

end Sys2Proof.Machine

/-! Requests as bytes (spec/30_encoding.md R58; the form is that of Decode.lean, notes/assumptions/1.md). What a reader
takes off the front is said once for each reader, as an equivalence with what its writer puts there, so that the two
directions of the round trip are the two directions of one lemma, `decode_reads`. -/

namespace Sys2Proof

section Readers

variable {α β : Type} {bs rest : List Byte}

/-- A reader answers an item exactly where its writer's form of that item stands at the front. -/
abbrev Reader.Reads (get : Reader α) (put : α → List Byte) : Prop :=
  ∀ {bs rest : List Byte} {a : α}, get bs = .ok (a, rest) ↔ bs = put a ++ rest

theorem Reader.andThen_eq_ok {get : Reader α} {next : α → Reader β} {b : β} :
    get.andThen next bs = .ok (b, rest) ↔ ∃ a mid, get bs = .ok (a, mid) ∧ next a mid = .ok (b, rest) := by
  unfold Reader.andThen
  cases get bs with
  | error e => simp
  | ok r => exact ⟨fun h => ⟨_, _, rfl, h⟩, by rintro ⟨a, mid, ⟨⟩, h⟩; exact h⟩

theorem Reader.map_eq_ok {get : Reader α} {f : α → β} {b : β} :
    get.map f bs = .ok (b, rest) ↔ ∃ a, get bs = .ok (a, rest) ∧ f a = b := by
  unfold Reader.map
  cases get bs with
  | error e => simp
  | ok r => exact ⟨fun h => by cases h; exact ⟨_, rfl, rfl⟩, by rintro ⟨a, ⟨⟩, rfl⟩; rfl⟩

/-- An item written out is read, and the next reader goes on with it. -/
theorem Reader.Reads.andThen {get : Reader α} {put : α → List Byte} (hget : Reader.Reads get put)
    (next : α → Reader β) (a : α) (rest : List Byte) : get.andThen next (put a ++ rest) = next a rest := by
  rw [Reader.andThen, hget.2 rfl]

/-- An item written out is read, and a value made from it is answered. -/
theorem Reader.Reads.map {get : Reader α} {put : α → List Byte} (hget : Reader.Reads get put)
    (f : α → β) (a : α) (rest : List Byte) : get.map f (put a ++ rest) = .ok (f a, rest) := by
  rw [Reader.map, hget.2 rfl]

theorem getByte_reads : Reader.Reads getByte putByte := by
  intro bs rest b
  cases bs <;> simp [getByte, putByte]

/- Numbers -/

/-- Fuel beyond the value of the number makes no difference. -/
theorem putNatFuel_eq_of_le {fuel fuel' n : Nat} (h : n ≤ fuel) (h' : n ≤ fuel') :
    putNatFuel fuel n = putNatFuel fuel' n := by
  induction fuel generalizing fuel' n with
  | zero =>
    obtain rfl : n = 0 := by omega
    cases fuel' <;> rfl
  | succ fuel ih =>
    cases fuel' with
    | zero =>
      obtain rfl : n = 0 := by omega
      rfl
    | succ fuel' =>
      rw [putNatFuel, putNatFuel]
      split
      · rfl
      · rw [ih (fuel' := fuel') (by omega) (by omega)]

theorem putNat_of_lt {n : Nat} (h : n < 128) : putNat n = [BitVec.ofNat 8 n] := by
  cases n with
  | zero => rfl
  | succ n => exact if_pos h

theorem putNat_of_le {n : Nat} (h : 128 ≤ n) :
    putNat n = BitVec.ofNat 8 (128 + n % 128) :: putNat (n / 128) := by
  obtain ⟨k, rfl⟩ : ∃ k, n = k + 1 := ⟨n - 1, by omega⟩
  rw [putNat, putNatFuel, if_neg (by omega), putNatFuel_eq_of_le (fuel' := (k + 1) / 128) (by omega) (le_refl _)]
  rfl

theorem byte_eq_ofNat_iff {b : Byte} {n : Nat} (h : n < 256) : b = BitVec.ofNat 8 n ↔ b.toNat = n := by
  rw [← BitVec.toNat_inj, BitVec.toNat_ofNat, Nat.mod_eq_of_lt h]

theorem nil_ne_putNat_append (n : Nat) : [] ≠ putNat n ++ rest := by
  obtain h | h := Nat.lt_or_ge n 128
  · rw [putNat_of_lt h]; nofun
  · rw [putNat_of_le h]; nofun

/-- The digit at the front of a number written out: its last one, or one with others behind it. -/
theorem cons_eq_putNat_append {b : Byte} {n : Nat} :
    b :: bs = putNat n ++ rest ↔
      (n < 128 ∧ b.toNat = n ∧ bs = rest) ∨ (128 ≤ n ∧ b.toNat = 128 + n % 128 ∧ bs = putNat (n / 128) ++ rest) := by
  obtain h | h := Nat.lt_or_ge n 128
  · simp [putNat_of_lt h, byte_eq_ofNat_iff (show n < 256 by omega), h]
  · simp [putNat_of_le h, byte_eq_ofNat_iff (show 128 + n % 128 < 256 by omega), h]

/-- The digit at the front of a number read: the same two cases. -/
theorem getNat_cons_eq_ok {b : Byte} {n : Nat} :
    getNat (b :: bs) = .ok (n, rest) ↔
      (n < 128 ∧ b.toNat = n ∧ bs = rest) ∨
      (128 ≤ n ∧ b.toNat = 128 + n % 128 ∧ getNat bs = .ok (n / 128, rest)) := by
  have hb := b.isLt
  rw [getNat]
  by_cases h : b.toNat < 128
  · simp only [if_pos h, Except.ok.injEq, Prod.mk.injEq]
    constructor
    · rintro ⟨hn, hrest⟩; exact .inl ⟨by omega, hn, hrest⟩
    · rintro (⟨-, hlast⟩ | ⟨-, hmore, -⟩)
      · exact hlast
      · omega
  · rw [if_neg h]
    cases hget : getNat bs with
    | error e => simp; omega
    | ok r =>
      obtain ⟨_ | m, rest'⟩ := r
      · simp; omega
      · simp only [Except.ok.injEq, Prod.mk.injEq]
        constructor
        · rintro ⟨hn, hrest⟩; exact .inr ⟨by omega, by omega, by omega, hrest⟩
        · rintro (⟨hlt, hlast, -⟩ | ⟨-, hdigit, hn, hrest⟩)
          · omega
          · exact ⟨by omega, hrest⟩

theorem getNat_reads : Reader.Reads getNat putNat := by
  intro bs rest n
  induction bs generalizing n with
  | nil => exact ⟨nofun, fun h => absurd h (nil_ne_putNat_append n)⟩
  | cons b bs ih => rw [getNat_cons_eq_ok, cons_eq_putNat_append, ih]

theorem swapBp_swapBp (bp : Nat) : swapBp (swapBp bp) = bp := by
  obtain _ | _ | bp := bp <;> rfl

theorem getBp_reads : Reader.Reads getBp putBp := by
  intro bs rest bp
  rw [getBp, Reader.map_eq_ok]
  constructor
  · rintro ⟨code, h, rfl⟩
    rw [putBp, swapBp_swapBp]
    exact getNat_reads.1 h
  · rintro rfl
    exact ⟨swapBp bp, getNat_reads.2 rfl, swapBp_swapBp bp⟩

/- Segments and sequences -/

theorem getLevel_reads : Reader.Reads getLevel putLevel := by
  intro bs rest l
  cases bs with
  | nil => exact ⟨nofun, nofun⟩
  | cons b bs =>
    rw [getLevel]
    by_cases h0 : b = 0
    · cases l <;> simp [putLevel, h0]
    · by_cases h1 : b = 1
      · cases l <;> simp [putLevel, h1]
      · rw [if_neg h0, if_neg h1]
        cases l <;> simp_all [putLevel]

theorem getSegment_reads : Reader.Reads getSegment putSegment := by
  intro bs rest seg
  rw [putSegment, List.append_assoc]
  constructor
  · simp only [getSegment, Reader.andThen_eq_ok, Reader.map_eq_ok, getNat_reads, getLevel_reads]
    rintro ⟨d, _, rfl, l, rfl, rfl⟩
    rfl
  · rintro rfl
    exact (getNat_reads.andThen ..).trans (getLevel_reads.map ..)

variable {get : Reader α} {put : α → List Byte}

/-- With fuel for its marks, one for each element and one for the end, a sequence is read. -/
theorem getMany_eq_ok (hget : get.Reads put) {fuel : Nat} {as : List α} :
    getMany get fuel bs = .ok (as, rest) ↔ as.length < fuel ∧ bs = putList put as ++ rest := by
  induction fuel generalizing bs as with
  | zero => cases bs <;> simp [getMany]
  | succ fuel ih =>
    cases bs with
    | nil => cases as <;> simp [getMany, putList]
    | cons m bs =>
      rw [getMany]
      by_cases h0 : m = 0
      · cases as <;> simp [putList, h0]
      · rw [if_neg h0]
        by_cases h1 : m = 1
        · simp only [if_pos h1, Reader.andThen_eq_ok, Reader.map_eq_ok, ih]
          cases as with
          | nil => simp [putList, h1]
          | cons a as =>
            simp only [putList, h1, List.cons_append, List.append_assoc, List.cons.injEq, true_and, List.length_cons,
              Nat.add_lt_add_iff_right]
            constructor
            · rintro ⟨a', mid, ha, as', ⟨hlen, rfl⟩, rfl, rfl⟩
              exact ⟨hlen, hget.1 ha⟩
            · rintro ⟨hlen, rfl⟩
              exact ⟨a, _, hget.2 rfl, as, ⟨hlen, rfl⟩, rfl, rfl⟩
        · rw [if_neg h1]
          cases as <;> simp_all [putList]

theorem length_lt_length_putList (put : α → List Byte) (as : List α) : as.length < (putList put as).length := by
  induction as with
  | nil => exact Nat.one_pos
  | cons a as ih => simp only [putList, List.length_cons, List.length_append]; omega

/-- The bytes there are enough fuel. -/
theorem getList_reads (hget : get.Reads put) : Reader.Reads (getList get) (putList put) := by
  intro bs rest as
  rw [getList, getMany_eq_ok hget, and_iff_right_iff_imp]
  rintro rfl
  have := length_lt_length_putList put as
  rw [List.length_append]; omega

theorem getBytes_reads : Reader.Reads (getList getByte) (putList putByte) := getList_reads getByte_reads

theorem getSegments_reads : Reader.Reads (getList getSegment) (putList putSegment) := getList_reads getSegment_reads

end Readers

section Requests

variable {bs rest : List Byte} {i : Instr}

/-- What the operands are read to be is what they were written from, under the tag they were read by. -/
theorem eq_putOperands_of_getOperands {t : Nat} (h : getOperands t bs = .ok (i, rest)) :
    t = i.tag.toNat ∧ bs = putOperands i ++ rest := by
  unfold getOperands at h
  split at h <;> simp only [Reader.andThen_eq_ok, Reader.map_eq_ok, getBp_reads, getNat_reads, getByte_reads,
    getSegment_reads, getBytes_reads, getSegments_reads] at h
  case h_1 => obtain ⟨bp, _, rfl, b, rfl, rfl⟩ := h; simp [putOperands, Instr.tag]
  case h_2 => obtain ⟨bp, _, rfl, cap, _, rfl, bytes, rfl, rfl⟩ := h; simp [putOperands, Instr.tag]
  case h_3 => obtain ⟨bp, _, rfl, d, rfl, rfl⟩ := h; simp [putOperands, Instr.tag]
  case h_4 => obtain ⟨bp, _, rfl, seg, rfl, rfl⟩ := h; simp [putOperands, Instr.tag]
  case h_5 => obtain ⟨bp, _, rfl, segs, rfl, rfl⟩ := h; simp [putOperands, Instr.tag]
  case h_6 => cases h; exact ⟨rfl, rfl⟩
  case h_7 => obtain ⟨bp, _, rfl, cap, _, rfl, bytes, rfl, rfl⟩ := h; simp [putOperands, Instr.tag]
  case h_8 => obtain ⟨max, _, rfl, timeout, _, rfl, bp, rfl, rfl⟩ := h; simp [putOperands, Instr.tag]
  case h_9 => cases h

/-- Operands written out are read back under their tag. -/
theorem getOperands_putOperands (i : Instr) (rest : List Byte) :
    getOperands i.tag.toNat (putOperands i ++ rest) = .ok (i, rest) := by
  cases i <;> simp only [putOperands, List.append_assoc]
  case encByte b bp => exact (getBp_reads.andThen ..).trans (getByte_reads.map ..)
  case encBuf bytes bp cap =>
    exact (getBp_reads.andThen ..).trans ((getNat_reads.andThen ..).trans (getBytes_reads.map ..))
  case quant d bp => exact (getBp_reads.andThen ..).trans (getNat_reads.map ..)
  case decSeg seg bp => exact (getBp_reads.andThen ..).trans (getSegment_reads.map ..)
  case decBatch segs bp => exact (getBp_reads.andThen ..).trans (getSegments_reads.map ..)
  case decInit => rfl
  case write bytes bp cap =>
    exact (getBp_reads.andThen ..).trans ((getNat_reads.andThen ..).trans (getBytes_reads.map ..))
  case read max timeout bp =>
    exact (getNat_reads.andThen ..).trans ((getNat_reads.andThen ..).trans (getBp_reads.map ..))

/-- Every operation has one byte form, and the decoder reads that form and no other. -/
theorem decode_reads : Reader.Reads decode encode := by
  intro bs rest i
  constructor
  · intro h
    cases bs with
    | nil => cases h
    | cons t bs =>
      obtain ⟨htag, rfl⟩ := eq_putOperands_of_getOperands h
      rw [BitVec.eq_of_toNat_eq htag]
      rfl
  · rintro rfl
    exact getOperands_putOperands i rest

/-- A first byte that is no tag of the operation map. -/
theorem decode_reservedTag {t : Byte} (h : 8 ≤ t.toNat) : decode (t :: bs) = .error .reservedTag := by
  obtain ⟨k, hk⟩ := Nat.exists_eq_add_of_le' h
  rw [decode, hk]
  rfl

theorem decodeTableWord_eq_some {nbits w : Nat} :
    decodeTableWord nbits w = some i ↔ ∃ rest, decode (tableBytes nbits w) = .ok (i, rest) := by
  unfold decodeTableWord
  cases decode (tableBytes nbits w) with
  | error e => simp
  | ok r => exact ⟨fun h => by cases h; exact ⟨_, rfl⟩, by rintro ⟨rest, ⟨⟩⟩; rfl⟩

/-- The request of a table word is the byte form of its operation. -/
theorem requestBytes_eq_encode {nbits w : Nat} (h : decodeTableWord nbits w = some i) :
    requestBytes nbits w = encode i := by
  obtain ⟨rest, hdec⟩ := decodeTableWord_eq_some.1 h
  have hbytes := decode_reads.1 hdec
  rw [hbytes] at hdec
  simp [requestBytes, hbytes, hdec]

end Requests

/-- Settles O1: the decoder run on each of the words. -/
theorem writtenWordsDecodeToTheirOperations : Obligations.WrittenWordsDecodeToTheirOperations :=
  ⟨rfl, rfl, rfl, rfl, rfl, rfl, rfl, rfl, rfl, rfl, rfl⟩

/-- Settles O2: one direction of `decode_reads`. -/
theorem decodeOfEncodeIsTheOperation : Obligations.DecodeOfEncodeIsTheOperation :=
  fun _ _ => decode_reads.2 rfl

/-- Settles O3: the other direction of `decode_reads`. -/
theorem decodedBytesAreTheEncoding : Obligations.DecodedBytesAreTheEncoding :=
  fun _ _ _ h => decode_reads.1 h

namespace Machine

section Requests

variable {s : State} {i : Instr} {rest : List Byte}

/-- With an operation at the front of the requests, a step is that operation (R38). -/
theorem step_of_decode_ok (h : decode s.requests = .ok (i, rest)) : step s = exec i (s.consume rest) := by
  unfold step fetch
  cases hreq : s.requests with
  | nil => rw [hreq] at h; cases h
  | cons b bs => rw [hreq] at h; simp only [h]

theorem step_of_requests_nil (h : s.requests = []) : step s = .next s := by
  simp only [step, fetch, h]

theorem step_of_decode_error {e : DecodeError} (hne : s.requests ≠ []) (h : decode s.requests = .error e) :
    step s = .refused (.malformed e) := by
  unfold step fetch
  cases hreq : s.requests with
  | nil => exact absurd hreq hne
  | cons b bs => rw [hreq] at h; simp only [h]

end Requests

/-- Settles O4. -/
theorem stepRunsTheDecodedOperation : Obligations.StepRunsTheDecodedOperation :=
  fun _ _ _ h => step_of_decode_ok h

/-- Settles O5: a first byte above 7 is one case of bytes that do not decode. -/
theorem stepWithoutAnOperation : Obligations.StepWithoutAnOperation := by
  refine ⟨fun s => step_of_requests_nil, fun s e => step_of_decode_error, fun s b bs hreq hb => ?_⟩
  exact step_of_decode_error (by rw [hreq]; nofun) (by rw [hreq]; exact decode_reservedTag hb)

/-- Settles O6: the bytes placed are the byte form of the operation, which decodes with anything behind it. -/
theorem placedTableWordRunsNext : Obligations.PlacedTableWordRunsNext := by
  intro s nbits w i h
  have hplaced : s.withFetchWord nbits w = s.consume (encode i ++ s.requests) := by
    rw [State.withFetchWord, State.placeWord, requestBytes_eq_encode h]
  rw [hplaced, step_of_decode_ok (decode_reads.2 rfl)]
  rfl

end Machine

end Sys2Proof

/-! Frames and runs (spec/30_encoding.md R53, R54, R57): the frame of a byte as a number, and a run of equal levels cut
in two (`runStep_add`): the only slot of the first part that may end the run is the one that wedges the channel, and
there the second part does nothing either. -/

namespace Sys2Proof.Machine

section Frames

/-- R53. -/
theorem frameOf_toNat (b : Byte) : (frameOf b).toNat = 2 * b.toNat + 512 := by
  have hb := b.isLt
  have hdata : (b.zeroExtend 10 <<< 1).toNat = 2 * b.toNat := by simp; omega
  have hdisjoint : 2 ^ 9 * 1 + 2 * b.toNat = 2 ^ 9 * 1 ||| 2 * b.toNat :=
    Nat.two_pow_add_eq_or_of_lt (by omega) 1
  rw [frameOf, BitVec.toNat_or, hdata, Nat.or_comm, Nat.add_comm]
  exact hdisjoint.symm

/-- R54. -/
theorem byteOf_toNat (acc : BitVec 10) : (byteOf acc).toNat = acc.toNat / 2 % 256 := by
  have hmask : ∀ n, n &&& 255 = n % 256 := fun n => Nat.and_two_pow_sub_one_eq_mod n 8
  simp [byteOf, hmask, Nat.shiftRight_eq_div_pow]

end Frames

/-- Settles O10. -/
theorem frameOfAByte : Obligations.FrameOfAByte :=
  fun b => ⟨frameOf_toNat b, frameOf_getLsbD_zero b, frameOf_getLsbD_nine b, fun _ => frameOf_getLsbD_succ b⟩

/-- Settles O11. -/
theorem byteOfAFrame : Obligations.ByteOfAFrame := ⟨byteOf_toNat, byteOf_frameOf⟩

section Runs

variable {m n bp : Nat} {l : Level} {st : DecoderState}

/-- R80: a whole number of bit periods. -/
theorem rhu_mul (hbp : 0 < bp) (n : Nat) : rhu (n * bp) bp = n := by
  rw [rhu, show 2 * (n * bp) + bp = bp + 2 * bp * n by ring, Nat.add_mul_div_left _ _ (by omega),
    Nat.div_eq_of_lt (by omega), Nat.zero_add]

theorem spanOf_mul (hbp : 0 < bp) (hn : 1 ≤ n) (l : Level) (st : DecoderState) : spanOf bp ⟨n * bp, l⟩ st = n := by
  rw [spanOf, rhu_mul hbp]
  exact if_neg fun h => by omega

/-- R90, R96: a run of level `l` that is `n` bit periods long: its slots, and none on a WEDGED channel. -/
def runStep (l : Level) (n : Nat) (st : DecoderState) : DecoderState × List Item :=
  if st.bitpos = 10 then (st, []) else slots l n st

/-- A run in one segment. -/
theorem segmentStep_mul (hbp : 0 < bp) (hn : 1 ≤ n) (l : Level) (st : DecoderState) :
    segmentStep bp ⟨n * bp, l⟩ st = runStep l n st := by
  rw [segmentStep, spanOf_mul hbp hn, runStep]

theorem runStep_wedged (hw : st.bitpos = 10) : runStep l n st = (st, []) := if_pos hw

theorem runStep_zero : runStep l 0 st = (st, []) := ite_self _

/-- Below slot 10 a run is its slots. -/
theorem runStep_eq_slots (hpos : st.bitpos.toNat ≤ 9) : runStep l n st = slots l n st :=
  if_neg (by rw [bitpos_eq_ten]; omega)

/-- R93: the first slot of a run is filled, and the run goes on. -/
theorem runStep_fill (hpos : st.bitpos.toNat < 9) (hl : l = true → st.bitpos ≠ 0) :
    runStep l (n + 1) st = runStep l n ⟨st.bitpos + 1, record st.acc st.bitpos.toNat l⟩ := by
  have hsucc := bitpos_succ hpos.le
  rw [runStep_eq_slots hpos.le, slots, slotStep_fill hpos hl, runStep_eq_slots (by dsimp only; omega)]
  rfl

/-- R94: the first slot of a low run wedges the channel. -/
theorem runStep_missing (hpos : st.bitpos.toNat = 9) :
    runStep false (n + 1) st = (⟨10, st.acc⟩, [.event .missingStopBit]) := by
  rw [runStep_eq_slots hpos.le, slots, slotStep_missing hpos]
  rfl

/-- R95: the first slot of a high run completes the byte, and the run goes on in a fresh decoder. -/
theorem runStep_complete (hpos : st.bitpos.toNat = 9) :
    runStep true (n + 1) st =
      ((runStep true n .fresh).1, .byte (byteOf (record st.acc 9 true)) :: (runStep true n .fresh).2) := by
  rw [runStep_eq_slots hpos.le, slots, slotStep_complete hpos, runStep_eq_slots (st := .fresh) (Nat.zero_le 9)]
  rfl

/-- R57: a run of `m + n` bit periods is one of `m` and then one of `n`, where no slot of the first is skipped. -/
theorem runStep_add (hpos : st.bitpos.toNat ≤ 10)
    (hhigh : l = true → 1 ≤ st.bitpos.toNat ∧ st.bitpos.toNat + m ≤ 10) :
    runStep l (m + n) st =
      ((runStep l n (runStep l m st).1).1, (runStep l m st).2 ++ (runStep l n (runStep l m st).1).2) := by
  induction m generalizing st with
  | zero => rw [runStep_zero, Nat.zero_add]; rfl
  | succ m ih =>
    rw [Nat.add_right_comm]
    obtain hlt | h9 | h10 : st.bitpos.toNat < 9 ∨ st.bitpos.toNat = 9 ∨ st.bitpos.toNat = 10 := by omega
    · have hsucc := bitpos_succ hlt.le
      have hl : l = true → st.bitpos ≠ 0 := fun h => by rw [Ne, bitpos_eq_zero]; have := hhigh h; omega
      rw [runStep_fill hlt hl, runStep_fill hlt hl]
      exact ih (by dsimp only; omega) fun h => by have := hhigh h; dsimp only; omega
    · cases l with
      | false => rw [runStep_missing h9, runStep_missing h9, runStep_wedged rfl]; rfl
      | true =>
        obtain rfl : m = 0 := by have := hhigh rfl; omega
        rw [runStep_complete h9, runStep_complete h9, runStep_zero, Nat.zero_add]
        rfl
    · have hw := bitpos_eq_ten.2 h10
      rw [runStep_wedged hw, runStep_wedged hw, runStep_wedged hw]
      rfl

end Runs

/-- Settles O30: both are the run of `m + n` bit periods, `runStep_add`. -/
theorem mergedRunsDecodeIdentically : Obligations.MergedRunsDecodeIdentically := by
  intro m n bp l s hcont hbp hlegal hdur hm hn hopen hfits
  rw [DurationLegal, Nat.add_mul] at hdur
  have hfirst : SegmentLegal s.params ⟨m * bp, l⟩ := show m * bp < _ by omega
  have hsecond : SegmentLegal s.params ⟨n * bp, l⟩ := show n * bp < _ by omega
  have hwhole : SegmentLegal s.params ⟨(m + n) * bp, l⟩ := show (m + n) * bp < _ by rwa [Nat.add_mul]
  have hmid := segmentStep_legal bp ⟨m * bp, l⟩ hlegal
  have hone := execDecSeg_next.2 ⟨hcont, hbp, hwhole, hlegal, rfl⟩
  have htwo := execDecBatch_next.2 ⟨hcont, hbp, _, decodeAll_cons_eq_ok.2
    ⟨_, decodeSegment_ok hbp hfirst hlegal, _, decodeAll_singleton hbp hsecond hmid, rfl⟩, rfl⟩
  rw [hone, htwo, segmentStep_mul hbp.1 hm, segmentStep_mul hbp.1 hn, segmentStep_mul hbp.1 (by omega),
    runStep_add hlegal.1 fun h => ⟨hopen h, hfits h⟩]

end Sys2Proof.Machine

/-! The encoder (spec/40_encoder.md R70 to R73): segment `10*k + j` of the output is that of bit `j` of byte `k`'s frame,
by induction on the bytes; and what ENC.BUF writes does not depend on the state it starts from. -/

namespace Sys2Proof.Machine

section Output

/-- R51: two segments to a pair. -/
theorem flat_length (pairs : List Pair) : (flat pairs).length = 2 * pairs.length := by
  induction pairs with
  | nil => rfl
  | cons p pairs ih =>
    have hcons : (flat (p :: pairs)).length = (flat pairs).length + 2 := rfl
    rw [hcons, ih, List.length_cons, Nat.mul_succ]

theorem flat_encodeBytes_length (bytes : List Byte) (bp : Nat) :
    (flat (encodeBytes bytes bp)).length = 10 * bytes.length := by
  rw [flat_length, encodeBytes_length]; omega

/-- R52, R53: a slot of a frame as a bit of the frame's number. -/
theorem frameBit_frameOf (b : Byte) (j : Nat) : frameBit (frameOf b) j = (2 * b.toNat + 512).testBit j := by
  rw [frameBit, BitVec.getLsbD, frameOf_toNat]

/-- R70: segment `j` of a byte. -/
theorem flat_encodeByte_getElem? (b : Byte) (bp : Nat) {j : Nat} (hj : j < 10) :
    (flat (encodeByte b bp))[j]? = some ⟨bp, !(2 * b.toNat + 512).testBit j⟩ := by
  rw [flat_encodeByte, List.getElem?_map, List.getElem?_range hj, Option.map_some, txSegment, frameBit_frameOf]

/-- R71: segment `j` of byte `k` stands at `10*k + j`: the frames of the bytes before it take ten segments each. -/
theorem flat_encodeBytes_getElem? {bytes : List Byte} {b : Byte} {k j : Nat} (bp : Nat) (hk : bytes[k]? = some b)
    (hj : j < 10) : (flat (encodeBytes bytes bp))[10 * k + j]? = some ⟨bp, !(2 * b.toNat + 512).testBit j⟩ := by
  induction bytes generalizing k with
  | nil => cases hk
  | cons first bytes ih =>
    rw [encodeBytes_cons, flat_append]
    cases k with
    | zero =>
      obtain rfl : first = b := Option.some.inj hk
      rw [Nat.mul_zero, Nat.zero_add, List.getElem?_append_left (by rwa [flat_encodeByte_length]),
        flat_encodeByte_getElem? first bp hj]
    | succ k =>
      have hskip : 10 * (k + 1) + j - (flat (encodeByte first bp)).length = 10 * k + j := by
        rw [flat_encodeByte_length]; omega
      rw [List.getElem?_append_right (by rw [flat_encodeByte_length]; omega), hskip]
      exact ih hk

/-- R73: the output lasts ten bit periods for each byte. -/
theorem flat_encodeBytes_duration_sum (bytes : List Byte) (bp : Nat) :
    ((flat (encodeBytes bytes bp)).map Segment.duration).sum = 10 * bytes.length * bp := by
  rw [List.sum_eq_card_nsmul _ bp (by simpa using flat_encodeBytes_duration bytes bp), List.length_map,
    flat_encodeBytes_length, smul_eq_mul]

end Output

section Buffer

variable {bytes : List Byte} {bp cap : Nat} {s t : State}

/-- R71: ENC.BUF where the output fits. -/
theorem encodeBuffer_of_fits (hcap : 10 * bytes.length ≤ cap) :
    encodeBuffer bytes bp cap s = s.encoded (encodeBytes bytes bp) :=
  if_neg (Nat.not_lt.2 hcap)

/-- R71: an ENC.BUF that ends with OK has written every frame. -/
theorem execEncBuf_ok (h : exec (.encBuf bytes bp cap) s = .next t) (hok : t.encResult = .ok) :
    t = s.encoded (encodeBytes bytes bp) := by
  obtain ⟨-, rfl⟩ := execEncBuf_next.1 h
  obtain ⟨-, hover⟩ | ⟨-, henc⟩ := encodeBuffer_cases bytes bp cap s
  · rw [hover] at hok; cases hok
  · exact henc

/-- R71: the output of an ENC.BUF that fits. -/
theorem execEncBuf_txSeg (hcap : 10 * bytes.length ≤ cap) (h : exec (.encBuf bytes bp cap) s = .next t) :
    t.txSeg = flat (encodeBytes bytes bp) := by
  obtain ⟨-, rfl⟩ := execEncBuf_next.1 h
  rw [encodeBuffer_of_fits hcap, State.encoded_txSeg]

/-- R72: output and result of ENC.BUF do not depend on the state. -/
theorem encodeBuffer_output_eq (bytes : List Byte) (bp cap : Nat) (s s' : State) :
    (encodeBuffer bytes bp cap s').txSeg = (encodeBuffer bytes bp cap s).txSeg ∧
      (encodeBuffer bytes bp cap s').encResult = (encodeBuffer bytes bp cap s).encResult := by
  unfold encodeBuffer
  split <;> exact ⟨rfl, rfl⟩

end Buffer

/-- R130: ENC.BYTE refuses an illegal bit period. -/
theorem execEncByte_refused {b : Byte} {bp : Nat} {s : State} (h : ¬ BpLegal s.params bp) :
    exec (.encByte b bp) s = .refused .badConfig :=
  if_neg h

/-- Settles O12: the output is `encodeByte`, whose segments `flat_encodeByte_getElem?` names. -/
theorem encByteEmitsTheInvertedFrame : Obligations.EncByteEmitsTheInvertedFrame := by
  refine ⟨fun b bp s hbp => ?_, fun b bp s hbp => execEncByte_refused (by rw [BpLegal]; omega)⟩
  exact ⟨_, execEncByte_next.2 ⟨hbp, rfl⟩, rfl, encodeByte_length b bp, flat_encodeByte_length b bp,
    fun _ => flat_encodeByte_getElem? b bp⟩

/-- Settles O13: the output is `encodeBytes`, whose segments `flat_encodeBytes_getElem?` names. -/
theorem encBufEmitsEveryFrameInOrder : Obligations.EncBufEmitsEveryFrameInOrder := by
  intro bytes bp cap s hbp hcap
  exact ⟨_, execEncBuf_next.2 ⟨hbp, (encodeBuffer_of_fits hcap).symm⟩, rfl, flat_encodeBytes_length bytes bp,
    fun _ _ _ => flat_encodeBytes_getElem? bp⟩

/-- Settles O15: an ENC.BUF that ends with OK has written `encodeBytes`. -/
theorem encBufShapeAndTotalDuration : Obligations.EncBufShapeAndTotalDuration := by
  intro bytes bp cap s t h hok
  obtain rfl := execEncBuf_ok h hok
  exact ⟨encodeBytes_length bytes bp, flat_encodeBytes_duration bytes bp, flat_encodeBytes_duration_sum bytes bp⟩

/-- Settles O16: where the whole fits, both parts do, and `encodeBytes` distributes. -/
theorem encBufDistributesOverConcatenation : Obligations.EncBufDistributesOverConcatenation := by
  intro x y bp cap s a b c hcap ha hb hc
  have hlen : (x ++ y).length = x.length + y.length := List.length_append
  rw [execEncBuf_txSeg hcap ha, execEncBuf_txSeg (by omega) hb, execEncBuf_txSeg (by omega) hc,
    encodeBytes_append, flat_append]

/-- Settles O17: a bit period legal for one `DUR_W` is legal in the other state too, and neither output nor result
depends on the state. -/
theorem encoderDependsOnItsOperandsOnly : Obligations.EncoderDependsOnItsOperandsOnly := by
  intro bytes bp cap s s' t hwidth h
  obtain ⟨hbp, rfl⟩ := execEncBuf_next.1 h
  rw [BpLegal, hwidth] at hbp
  exact ⟨_, execEncBuf_next.2 ⟨hbp, rfl⟩, encodeBuffer_output_eq bytes bp cap s s'⟩

end Sys2Proof.Machine

/-! The quantizer (spec/41_quantizer.md R80 to R84): the span as the integer that its window names (`rhu_eq_iff`), from
which the other forms follow, and the span that the slots of a segment can no longer tell from a larger one. -/

namespace Sys2Proof.Machine

section Rounding

variable {d bp k : Nat}

/-- R82: the span is the multiple of the bit period that is nearest, a half going up. -/
theorem rhu_eq_iff (hbp : 0 < bp) :
    rhu d bp = k ↔ 2 * (k * bp) ≤ 2 * d + bp ∧ 2 * d < 2 * (k * bp) + bp := by
  rw [rhu, Nat.div_eq_iff (by omega), Nat.mul_left_comm]
  omega

/-- R81: halving the numerator first loses nothing. -/
theorem rhu_eq_add_half_div (d bp : Nat) : rhu d bp = (d + bp / 2) / bp := by
  have hhalf : (2 * d + bp) / 2 = d + bp / 2 := by omega
  rw [rhu, ← Nat.div_div_eq_div_mul, hhalf]

/-- R83. -/
theorem rhu_eq_zero_iff (hbp : 0 < bp) : rhu d bp = 0 ↔ 2 * d < bp := by
  rw [rhu_eq_iff hbp]
  omega

/-- R84: `d + 1` bit periods are at least `d` ticks and one whole bit period. -/
theorem rhu_le (hbp : 0 < bp) : rhu d bp ≤ d := by
  by_contra! hgt
  have hlow := ((rhu_eq_iff hbp).1 (rfl : rhu d bp = _)).1
  have hmul : (d + 1) * bp ≤ rhu d bp * bp := Nat.mul_le_mul_right bp hgt
  have hticks : d ≤ d * bp := Nat.le_mul_of_pos_right d hbp
  rw [Nat.succ_mul] at hmul
  omega

end Rounding

/-- R130: QUANT refuses an illegal bit period. -/
theorem execQuant_refused {d bp : Nat} {s : State} (h : ¬ BpLegal s.params bp) :
    exec (.quant d bp) s = .refused .badConfig :=
  if_pos h

/-- Settles O19: the bounds of `rhu_eq_iff`, with `k * BP` taken off. -/
theorem quantToleranceWindow : Obligations.QuantToleranceWindow := by
  intro d bp k e s t h hd
  obtain ⟨hbp, -, rfl⟩ := execQuant_next.1 h
  rw [State.quantized_span, rhu_eq_iff hbp.1]
  rw [← Nat.cast_mul] at hd
  omega

/-- Settles O20: the three forms of `rhu` at a legal bit period. -/
theorem quantEquivalentForm : Obligations.QuantEquivalentForm := by
  intro d bp s t h
  obtain ⟨hbp, -, rfl⟩ := execQuant_next.1 h
  rw [State.quantized_span]
  exact ⟨rhu_eq_add_half_div d bp, rhu_eq_zero_iff hbp.1, rhu_le hbp.1⟩

/-- R84, R98: eleven slots take every segment past its last visible effect: a low one wedges the channel (L2), an idle
one is skipped at its first slot (H0), and a high one in an open frame completes the byte and skips one slot (H3). -/
theorem slots_eq_of_ge_eleven (l : Level) {m n : Nat} {st : DecoderState} (hpos : st.bitpos.toNat ≤ 9) (hm : 11 ≤ m)
    (hn : 11 ≤ n) : slots l m st = slots l n st := by
  cases l with
  | false => rw [slots_low_missing m st hpos (by omega), slots_low_missing n st hpos (by omega)]
  | true =>
    obtain hidle | hopen := Nat.eq_zero_or_pos st.bitpos.toNat
    · have hskip : ∀ i, 11 ≤ i → slots true i st = (st, [.event .skippedNonStart]) := fun i hi => by
        rw [← Nat.sub_add_cancel (show 1 ≤ i by omega), slots_skip _ st (bitpos_eq_zero.2 hidle)]
      rw [hskip m hm, hskip n hn]
    · rw [slots_high_complete m st hopen hpos (by omega), slots_high_complete n st hopen hpos (by omega),
        if_neg (by omega), if_neg (by omega)]

/-- Settles O29: eleven slots and any larger number agree, `slots_eq_of_ge_eleven`. -/
theorem spanMayBeClampedToEleven : Obligations.SpanMayBeClampedToEleven :=
  fun l _ _ _ hpos hn => slots_eq_of_ge_eleven l hpos hn le_rfl

/-- Settles O18: the update of QUANT writes the span only, and a bit period of 0 is not legal. -/
theorem quantAnswersTheRoundedSpan : Obligations.QuantAnswersTheRoundedSpan := by
  refine ⟨fun d bp s hbp hd => execQuant_next.2 ⟨hbp, hd, rfl⟩, fun d s => execQuant_refused fun hbp => ?_⟩
  exact absurd hbp.1 (Nat.lt_irrefl 0)

end Sys2Proof.Machine

/-! Runs of operations (spec/42_decoder.md R101, R102, spec/70_reset_and_hazards.md R142): batches one after another
are one decode of their segments, and a WEDGED channel stays as it is until DEC.INIT. -/

namespace Sys2Proof.Machine

section RunsOfOperations

variable {s t u : State}

/-- R38: the first operation, then the others. -/
theorem execAll_cons_eq_next {i : Instr} {is : List Instr} :
    execAll (i :: is) s = .next t ↔ ∃ u, exec i s = .next u ∧ execAll is u = .next t := by
  rw [execAll]
  cases exec i s <;> simp

/-- R101: segments that are decoded in one are decoded in any batches, to the same DecoderState and trace. -/
theorem execAll_decBatch_of_decodeAll {bp : Nat} {batches : List (List Segment)} {r : DecoderState × List Item}
    (hcont : s.contended = false) (hbp : BpLegal s.params bp)
    (h : decodeAll s.params bp batches.flatten s.dec = .ok r) :
    ∃ t, execAll (batches.map fun batch => .decBatch batch bp) s = .next t ∧ t.dec = r.1 ∧
      t.trace = s.trace ++ r.2 := by
  induction batches generalizing s r with
  | nil => cases h; exact ⟨s, rfl, rfl, (List.append_nil _).symm⟩
  | cons batch batches ih =>
    rw [List.flatten_cons] at h
    obtain ⟨a, ha, b, hb, rfl⟩ := decodeAll_append_eq_ok.1 h
    obtain ⟨t, ht, hdec, htrace⟩ := ih (s := s.decoded a.1 a.2) hcont hbp hb
    refine ⟨t, execAll_cons_eq_next.2 ⟨_, execDecBatch_next.2 ⟨hcont, hbp, a, ha, rfl⟩, ht⟩, hdec, ?_⟩
    rw [htrace, State.decoded_trace, List.append_assoc]

/-- R96, R142: no operations but DEC.INIT move a WEDGED channel. -/
theorem execAll_wedged {is : List Instr} (hw : s.dec.Wedged) (hinit : .decInit ∉ is) (h : execAll is s = .next t) :
    t.dec = s.dec ∧ t.trace = s.trace := by
  induction is generalizing s with
  | nil => cases h; exact ⟨rfl, rfl⟩
  | cons i is ih =>
    obtain ⟨u, hi, his⟩ := execAll_cons_eq_next.1 h
    obtain ⟨hne, hinit⟩ := List.ne_and_not_mem_of_not_mem_cons hinit
    obtain ⟨hdec, htrace⟩ := wedgedIsEnteredAndLeftOnlyAsStated.2 i s u hi hw hne.symm
    obtain ⟨hdec', htrace'⟩ := ih (hdec ▸ hw) hinit his
    exact ⟨hdec'.trans hdec, htrace'.trans htrace⟩

/-- R112: a READ on a WEDGED channel returns and puts out nothing, and keeps what is kept. -/
theorem execRead_wedged {max timeout bp : Nat} (hw : t.dec.Wedged) (h : exec (.read max timeout bp) t = .next u) :
    u.readBytes = [] ∧ u.decOut = [] ∧ u.held = t.held := by
  obtain ⟨-, ⟨-, rfl⟩ | ⟨-, r, hr, rfl⟩⟩ := execRead_next.1 h
  · exact ⟨rfl, rfl, rfl⟩
  · obtain ⟨⟨used, hused⟩, -, -⟩ := readBatches_ok hr
    have hsilent : r.2.1 = [] := congrArg Prod.snd (decodeAll_wedged hused hw)
    refine ⟨?_, hsilent, State.delivered_held_of_wedged t max _ r.2.2 hw⟩
    rw [State.decoded_readBytes, State.delivered_readBytes, State.kept_of_wedged t hw, hsilent]
    exact List.take_nil

end RunsOfOperations

/-- Settles O33: ENC.BUF leaves the DecoderState and the trace alone, its inverted output decodes to the bytes, and the
batches decode what it decodes in one. -/
theorem roundTrip : Obligations.RoundTrip := by
  intro bytes bp cap batches s e hcont hdec hcap he hbatches
  obtain ⟨hbp, henc⟩ := execEncBuf_next.1 he
  rw [encodeBuffer_of_fits hcap] at henc
  subst henc
  have hline : decodeAll s.params bp batches.flatten s.dec = .ok (.fresh, bytes.map .byte) := by
    rw [hbatches, hdec]; exact decodeAll_inv_flat_encodeBytes hbp bytes
  exact execAll_decBatch_of_decodeAll (s := s.encoded _) hcont hbp hline

/-- Settles O55: the operations before leave the channel WEDGED, where a READ is silent; DEC.INIT makes the DecoderState
fresh. -/
theorem wedgedChannelStaysSilentUntilInit : Obligations.WedgedChannelStaysSilentUntilInit := by
  intro is s t hw hinit h
  obtain ⟨hdec, htrace⟩ := execAll_wedged hw hinit h
  exact ⟨hdec, htrace, fun _ _ _ _ => execRead_wedged (hdec ▸ hw),
    fun hcont => ⟨_, execDecInit_next.2 ⟨hcont, rfl⟩, rfl⟩⟩

end Sys2Proof.Machine

/-! DEC.SEG (spec/42_decoder.md R90 to R99, R103, R104): the rows of the closed form that single statements name, each
said once of `segmentStep`, and the closed form itself, which `segmentStep_cases` holds. -/

namespace Sys2Proof.Machine

section Segments

variable {bp d : Nat} {st : DecoderState}

/-- R90: below slot 10 a segment is its slots. -/
theorem segmentStep_eq_slots (seg : Segment) (hpos : st.bitpos.toNat ≤ 9) :
    segmentStep bp seg st = slots seg.level (spanOf bp seg st) st :=
  if_neg (by rw [bitpos_eq_ten]; omega)

/-- R91: a span of zero slots, high, fills the frame. -/
theorem spanOf_high_of_zero (hspan : rhu d bp = 0) : spanOf bp ⟨d, true⟩ st = 10 - st.bitpos.toNat :=
  if_pos ⟨hspan, rfl⟩

theorem spanOf_low : spanOf bp ⟨d, false⟩ st = rhu d bp :=
  if_neg fun h => Bool.false_ne_true h.2

/-- R91: where the frame is not over, a high segment has at least one slot. -/
theorem one_le_spanOf_high (hpos : st.bitpos.toNat ≤ 9) : 1 ≤ spanOf bp ⟨d, true⟩ st := by
  obtain hzero | hone := Nat.eq_zero_or_pos (rhu d bp)
  · rw [spanOf_high_of_zero hzero]; omega
  · exact hone.trans_eq (if_neg fun h => hone.ne' h.1).symm

/-- R92, row H0 of R98. -/
theorem segmentStep_idle (h : st.bitpos = 0) : segmentStep bp ⟨d, true⟩ st = (st, [.event .skippedNonStart]) := by
  have hpos : st.bitpos.toNat ≤ 9 := by rw [h]; decide
  rw [segmentStep_eq_slots _ hpos, ← Nat.sub_add_cancel (one_le_spanOf_high hpos), slots_skip _ st h]

/-- R97, rows W and Z of R98. -/
theorem segmentStep_low_of_zero (hspan : rhu d bp = 0) : segmentStep bp ⟨d, false⟩ st = (st, []) := by
  rw [segmentStep, spanOf_low, hspan, slots, ite_self]

/-- R91, row H2 of R98. -/
theorem segmentStep_high_of_zero (hspan : rhu d bp = 0) (hopen : 1 ≤ st.bitpos.toNat) (hpos : st.bitpos.toNat ≤ 9) :
    segmentStep bp ⟨d, true⟩ st =
      (.fresh, [.byte (byteOf (st.acc ||| ones st.bitpos.toNat (10 - st.bitpos.toNat)))]) := by
  have hend : st.bitpos.toNat + (10 - st.bitpos.toNat) = 10 := by omega
  rw [segmentStep_eq_slots _ hpos, spanOf_high_of_zero hspan, slots_high_complete _ st hopen hpos hend.ge, if_pos hend]

/-- R94, row L2 of R98. -/
theorem segmentStep_low_missing (hpos : st.bitpos.toNat ≤ 9) (hspan : 10 ≤ st.bitpos.toNat + rhu d bp) :
    segmentStep bp ⟨d, false⟩ st = (⟨10, st.acc⟩, [.event .missingStopBit]) := by
  rw [segmentStep_eq_slots _ hpos, spanOf_low, slots_low_missing _ st hpos hspan]

/-- R95, R103: data bit `m` of a byte that high slots complete is the level of slot `m + 1`: high from `BITPOS` on, and
below it as recorded. -/
theorem byteOf_fill_getLsbD (acc : BitVec 10) {p m : Nat} (hp : p ≤ 9) (hm : m < 8) :
    (byteOf (acc ||| ones p (10 - p))).getLsbD m = (decide (p ≤ m + 1) || acc.getLsbD (m + 1)) := by
  have hhigh : decide (m + 1 < p + (10 - p)) = true := decide_eq_true (by omega)
  rw [byteOf_getLsbD _ m hm, BitVec.getLsbD_or, ones_getLsbD p (10 - p) (m + 1) (by omega) (by omega), hhigh,
    Bool.and_true, Bool.or_comm]

/-- DEC.SEG on legal operands and a legal state is the decode that `segmentStep` makes. -/
theorem execDecSeg_of_segmentStep {seg : Segment} {s : State} {r : DecoderState × List Item}
    (hcont : s.contended = false) (hbp : BpLegal s.params bp) (hseg : SegmentLegal s.params seg)
    (hlegal : s.dec.Legal) (h : segmentStep bp seg s.dec = r) :
    exec (.decSeg seg bp) s = .next (s.decoded r.1 r.2) :=
  execDecSeg_next.2 ⟨hcont, hbp, hseg, hlegal, by rw [h]⟩

/-- A decode that changes no DecoderState and puts nothing out (R97, R100). -/
theorem State.decoded_nil (s : State) : s.decoded s.dec [] = { s with decOut := [] } := by
  rw [State.decoded, List.append_nil]

end Segments

/-- Settles O21: the rows of `segmentStep_cases`. -/
theorem decSegClosedForm : Obligations.DecSegClosedForm := by
  intro seg bp s hcont hbp hseg hlegal
  refine ⟨_, execDecSeg_next.2 ⟨hcont, hbp, hseg, hlegal, rfl⟩, rfl, ?_⟩
  intro p q n
  rw [State.decoded_dec, State.decoded_decOut]
  have hspan : n = spanOf bp seg s.dec := rfl
  have hp : p = s.dec.bitpos.toNat := rfl
  obtain ⟨h, e⟩ | ⟨h, hn, hl, e⟩ | ⟨h, hn, hl, e⟩ | ⟨h, hn, hle, hl, e⟩ | ⟨h, h9, hge, hl, e⟩ | ⟨hn, hle, hl, e⟩ |
    ⟨h9, hge, hl, e⟩ := segmentStep_cases bp seg s.dec hlegal <;> rw [e]
  · rw [if_pos h]; exact ⟨rfl, rfl⟩
  · rw [if_neg (by omega), if_pos (by omega)]; exact ⟨rfl, rfl⟩
  · rw [if_neg (by omega), if_neg (by omega), if_pos hl, if_pos h]; exact ⟨rfl, rfl⟩
  · rw [if_neg (by omega), if_neg (by omega), if_pos hl, if_neg (by omega), if_pos (by omega)]
    exact ⟨toNat_ofNat_bitpos (by omega), rfl, rfl⟩
  · rw [if_neg (by omega), if_neg (by omega), if_pos hl, if_neg (by omega), if_neg (by omega)]
    exact ⟨rfl, rfl, rfl⟩
  · rw [if_neg (by omega), if_neg (by omega), if_neg (by simp [hl]), if_pos (by omega)]
    exact ⟨toNat_ofNat_bitpos (by omega), rfl, rfl⟩
  · rw [if_neg (by omega), if_neg (by omega), if_neg (by simp [hl]), if_neg (by omega)]
    exact ⟨rfl, rfl, rfl⟩

/-- Settles O22: each row puts out one of the five, those with a byte or a skip are high, the one without the stop bit is
low. -/
theorem decSegOutputShapes : Obligations.DecSegOutputShapes := by
  intro seg bp s t h
  obtain ⟨-, -, -, hlegal, rfl⟩ := execDecSeg_next.1 h
  rw [State.decoded_decOut]
  obtain ⟨-, e⟩ | ⟨-, -, -, e⟩ | ⟨-, -, hl, e⟩ | ⟨-, -, -, -, e⟩ | ⟨-, -, -, hl, e⟩ | ⟨-, -, -, e⟩ | ⟨-, -, hl, e⟩ :=
    segmentStep_cases bp seg s.dec hlegal <;> rw [e]
  · exact ⟨.inl rfl, fun _ => ⟨rfl, nofun⟩, nofun⟩
  · exact ⟨.inl rfl, fun _ => ⟨rfl, nofun⟩, nofun⟩
  · exact ⟨.inr (.inr (.inr (.inl rfl))), by simp [hl], by simp [events, Item.event?]⟩
  · exact ⟨.inl rfl, fun _ => ⟨rfl, nofun⟩, nofun⟩
  · dsimp only
    split
    · exact ⟨.inr (.inl ⟨_, rfl⟩), by simp [hl], by simp [events, Item.event?]⟩
    · exact ⟨.inr (.inr (.inl ⟨_, rfl⟩)), by simp [hl], by simp [events, Item.event?]⟩
  · exact ⟨.inl rfl, fun _ => ⟨rfl, nofun⟩, nofun⟩
  · exact ⟨.inr (.inr (.inr (.inr rfl))), by simp [rxBytes, events, Item.byte?, Item.event?], by simp [hl]⟩

/-- Settles O23: the row `segmentStep_idle`. -/
theorem idleSegmentIsSkipped : Obligations.IdleSegmentIsSkipped :=
  fun _ _ _ hcont hbp hd hlegal h0 => execDecSeg_of_segmentStep hcont hbp hd hlegal (segmentStep_idle h0)

/-- Settles O24: the row `segmentStep_high_of_zero` in an open frame, and `segmentStep_idle` where none is open. -/
theorem zeroSpanHighCompletesTheByte : Obligations.ZeroSpanHighCompletesTheByte := by
  refine ⟨fun d bp s hcont hbp hd hlegal hzero hopen hpos => ?_, fun d bp s hcont hbp hd hlegal _ h0 => ?_⟩
  · have hspan := (rhu_eq_zero_iff hbp.1).2 hzero
    refine ⟨_, _, execDecSeg_of_segmentStep hcont hbp hd hlegal (segmentStep_high_of_zero hspan hopen hpos),
      rfl, rfl, rfl, fun m hm => ?_⟩
    rw [byteOf_fill_getLsbD _ hpos hm]
    split
    · rw [decide_eq_false (by omega), Bool.false_or]
    · rw [decide_eq_true (by omega), Bool.true_or]
  · exact ⟨_, idleSegmentIsSkipped d bp s hcont hbp hd hlegal h0, rfl, rfl⟩

/-- Settles O25: the row `segmentStep_low_of_zero`. -/
theorem zeroSpanLowHasNoEffect : Obligations.ZeroSpanLowHasNoEffect := by
  intro d bp s hcont hbp hd hlegal hzero
  have hspan := (rhu_eq_zero_iff hbp.1).2 hzero
  rw [execDecSeg_of_segmentStep hcont hbp hd hlegal (segmentStep_low_of_zero hspan), State.decoded_nil]

/-- Settles O26: the row `segmentStep_low_missing`; bit 9 of a legal DecoderState is clear. -/
theorem missingStopBitWedges : Obligations.MissingStopBitWedges := by
  intro d bp s hcont hbp hd hlegal hpos hspan
  obtain ⟨-, -, hnine, -⟩ := id hlegal
  exact ⟨_, execDecSeg_of_segmentStep hcont hbp hd hlegal (segmentStep_low_missing hpos hspan), rfl, rfl, hnine,
    rfl, rfl⟩

/-- Settles O28: of the rows, only H2 and H3 put out a byte, the one that `byteOf_fill_getLsbD` reads. -/
theorem emittedByteIsItsFrame : Obligations.EmittedByteIsItsFrame := by
  intro seg bp s t b h hmem
  obtain ⟨-, -, -, hlegal, rfl⟩ := execDecSeg_next.1 h
  obtain ⟨-, hstart, -, -⟩ := id hlegal
  rw [State.decoded_decOut] at hmem
  rw [State.decoded_dec]
  obtain ⟨-, e⟩ | ⟨-, -, -, e⟩ | ⟨-, -, -, e⟩ | ⟨-, -, -, -, e⟩ | ⟨hopen, hpos, -, hl, e⟩ | ⟨-, -, -, e⟩ | ⟨-, -, -, e⟩ :=
    segmentStep_cases bp seg s.dec hlegal <;> rw [e] at hmem ⊢
  · nomatch hmem
  · nomatch hmem
  · nomatch hmem
  · nomatch hmem
  · obtain rfl : b = byteOf (s.dec.acc ||| ones s.dec.bitpos.toNat (10 - s.dec.bitpos.toNat)) := by
      dsimp only at hmem
      split at hmem <;> simpa using hmem
    exact ⟨hl, hopen, hpos, hstart, rfl, rfl, fun m hm => byteOf_fill_getLsbD _ hpos hm⟩
  · nomatch hmem
  · nomatch hmem

end Sys2Proof.Machine

/-! DEC.BATCH (spec/42_decoder.md R100 to R102): a batch cut in two (`execDecBatch_append`), DEC.SEG as the batch of its
one segment, and idle segments in front of a batch. -/

namespace Sys2Proof.Machine

section Batches

variable {bp : Nat} {x y : List Segment} {s a b t : State}

/-- R101: a batch of `x ++ y` is the batch of `x` and then that of `y`, with both outputs. -/
theorem execDecBatch_append (ha : exec (.decBatch x bp) s = .next a) (hb : exec (.decBatch y bp) a = .next b) :
    exec (.decBatch (x ++ y) bp) s = .next { b with decOut := a.decOut ++ b.decOut } := by
  obtain ⟨hcont, hbp, r, hr, rfl⟩ := execDecBatch_next.1 ha
  obtain ⟨-, -, r', hr', rfl⟩ := execDecBatch_next.1 hb
  refine execDecBatch_next.2 ⟨hcont, hbp, _, decodeAll_append_eq_ok.2 ⟨r, hr, r', hr', rfl⟩, ?_⟩
  simp only [State.decoded, List.append_assoc]

/-- R101: where the batch of `x ++ y` completes, so do its parts. -/
theorem execDecBatch_parts (h : exec (.decBatch (x ++ y) bp) s = .next t) :
    ∃ a b, exec (.decBatch x bp) s = .next a ∧ exec (.decBatch y bp) a = .next b := by
  obtain ⟨hcont, hbp, _, hr, -⟩ := execDecBatch_next.1 h
  obtain ⟨r, hx, r', hy, -⟩ := decodeAll_append_eq_ok.1 hr
  exact ⟨s.decoded r.1 r.2, (s.decoded r.1 r.2).decoded r'.1 r'.2, execDecBatch_next.2 ⟨hcont, hbp, r, hx, rfl⟩,
    execDecBatch_next.2 ⟨hcont, hbp, r', hy, rfl⟩⟩

/-- R100: DEC.SEG is the batch of its one segment. -/
theorem execDecBatch_singleton {seg : Segment} (h : exec (.decSeg seg bp) s = .next t) :
    exec (.decBatch [seg] bp) s = .next t := by
  obtain ⟨hcont, hbp, hseg, hlegal, rfl⟩ := execDecSeg_next.1 h
  exact execDecBatch_next.2 ⟨hcont, hbp, _, decodeAll_singleton hbp hseg hlegal, rfl⟩

/-- R100: DEC.BATCH of no segments. -/
theorem execDecBatch_nil (hcont : s.contended = false) (hbp : BpLegal s.params bp) :
    exec (.decBatch [] bp) s = .next { s with decOut := [] } :=
  execDecBatch_next.2 ⟨hcont, hbp, _, rfl, s.decoded_nil.symm⟩

/-- R92, C8: high segments where no frame is open are skipped, one event each. -/
theorem decodeAll_idle {p : Params} {idle : List Segment} {st : DecoderState} {r : DecoderState × List Item}
    (hidle : ∀ seg ∈ idle, seg.level = true) (h0 : st.bitpos = 0) (h : decodeAll p bp idle st = .ok r) :
    r = (st, List.replicate idle.length (.event .skippedNonStart)) := by
  induction idle generalizing r with
  | nil => cases h; rfl
  | cons seg idle ih =>
    obtain ⟨d, l⟩ := seg
    obtain ⟨hl, hrest⟩ := List.forall_mem_cons.1 hidle
    obtain rfl : l = true := hl
    obtain ⟨a, ha, b, hb, rfl⟩ := decodeAll_cons_eq_ok.1 h
    obtain ⟨-, -, -, rfl⟩ := decodeSegment_eq_ok.1 ha
    rw [segmentStep_idle h0] at hb ⊢
    rw [ih hrest hb]
    rfl

theorem rxBytes_replicate_event (n : Nat) (e : Event) : rxBytes (List.replicate n (.event e)) = [] := by
  rw [rxBytes, List.filterMap_replicate_of_none rfl]

end Batches

/-- Settles O31: DEC.SEG is the batch of its one segment, and a batch may be cut behind it. -/
theorem decBatchIsSegmentsInOrder : Obligations.DecBatchIsSegmentsInOrder := by
  refine ⟨fun segs bp s hcont hbp hsegs hlegal => ?_, fun bp s => execDecBatch_nil,
    fun seg segs bp s a b t ha hb ht => ?_⟩
  · obtain ⟨r, hr, hlegal'⟩ := decodeAll_ok hbp segs hsegs s.dec hlegal
    exact ⟨_, execDecBatch_next.2 ⟨hcont, hbp, r, hr, rfl⟩, rfl, hlegal'⟩
  · have hcut := execDecBatch_append (execDecBatch_singleton ha) hb
    obtain rfl := Host.Outcome.next.inj (ht.symm.trans hcut)
    exact ⟨rfl, rfl, rfl⟩

/-- Settles O32: a batch is its parts, and its parts complete where it does. -/
theorem batchSplitInvariance : Obligations.BatchSplitInvariance := by
  refine fun x y bp s => ⟨fun a b => execDecBatch_append, fun t ht => ?_⟩
  obtain ⟨a, b, ha, hb⟩ := execDecBatch_parts ht
  obtain rfl := Host.Outcome.next.inj (ht.symm.trans (execDecBatch_append ha hb))
  exact ⟨a, b, ha, hb, rfl, rfl⟩

/-- Settles O34: the idle segments leave the DecoderState as it is, so the others decode as they do alone. -/
theorem idleBetweenFramesAddsOnlySkips : Obligations.IdleBetweenFramesAddsOnlySkips := by
  intro idle segs bp s t hidle h0 h
  obtain ⟨hcont, hbp, _, hr, rfl⟩ := execDecBatch_next.1 h
  obtain ⟨a, ha, b, hb, rfl⟩ := decodeAll_append_eq_ok.1 hr
  obtain rfl := decodeAll_idle hidle h0 ha
  refine ⟨_, execDecBatch_next.2 ⟨hcont, hbp, b, hb, rfl⟩, rfl, rfl, ?_⟩
  rw [State.decoded_decOut, State.decoded_decOut, rxBytes_append, rxBytes_replicate_event, List.nil_append]

end Sys2Proof.Machine

/-! WRITE (spec/43_system_ops.md R111): what follows ENC.BUF, case by case, and the report that a hand-off takes.
DEC.INIT (R110) is the update its inversion lemma names. -/

namespace Sys2Proof.Machine

section Write

variable {bytes : List Byte} {bp cap : Nat} {s : State}

/-- R111: after an overflow. -/
theorem transmit_of_overflow (h : s.encResult = .overflow) : transmit s = s.wrote .failure := if_pos h

/-- N12: nothing to send, and it does not reach the transmit capability. -/
theorem transmit_of_unsent (hres : s.encResult ≠ .overflow) (hnil : s.txPairs = [])
    (hsends : s.params.writeEmptySends = false) : transmit s = s.wroteNothing :=
  (if_neg hres).trans (if_pos ⟨hnil, hsends⟩)

/-- R111, R42: frames, or nothing where that too is sent, are handed over. -/
theorem transmit_of_sent (hres : s.encResult ≠ .overflow)
    (hsends : s.txPairs = [] → s.params.writeEmptySends = true) : transmit s = s.handOff s.nextReport :=
  (if_neg hres).trans (if_neg fun h => absurd (hsends h.1) (by rw [h.2]; decide))

/-- R42: the first report that the input names, or the free value. -/
theorem State.nextReport_eq (s : State) :
    s.nextReport = s.txReports.head?.getD (Config.txReport s.params.stream s.handoffs.length) := by
  unfold State.nextReport
  cases s.txReports <;> rfl

/-- R111: the WRITE that fits and is sent. -/
theorem execWrite_of_sent (hbp : BpLegal s.params bp) (hcap : 10 * bytes.length ≤ cap)
    (hsends : bytes = [] → s.params.writeEmptySends = true) :
    exec (.write bytes bp cap) s = .next ((s.encoded (encodeBytes bytes bp)).handOff s.nextReport) := by
  refine execWrite_next.2 ⟨hbp, ?_⟩
  rw [encodeBuffer_of_fits hcap]
  refine (transmit_of_sent (s := s.encoded _) nofun fun hnil => hsends ?_).symm
  have hlen := encodeBytes_length bytes bp
  rw [State.encoded_txPairs] at hnil
  rw [hnil, List.length_nil] at hlen
  exact List.length_eq_zero_iff.1 (by omega)

/-- N12: the WRITE of no bytes that is not sent. -/
theorem execWrite_of_unsent (hbp : BpLegal s.params bp) (hsends : s.params.writeEmptySends = false) :
    exec (.write [] bp cap) s = .next (s.encoded []).wroteNothing := by
  refine execWrite_next.2 ⟨hbp, ?_⟩
  rw [encodeBuffer_of_fits (Nat.zero_le cap), encodeBytes_nil, transmit_of_unsent (s := s.encoded []) nofun rfl hsends]

end Write

/-- Settles O36: DEC.INIT is `initDecoder`. -/
theorem decInitMakesAFreshDecoder : Obligations.DecInitMakesAFreshDecoder :=
  fun _ hcont => execDecInit_next.2 ⟨hcont, rfl⟩

/-- Settles O37: ENC.BUF overflows, and the WRITE ends there. -/
theorem writeOverflowTransmitsNothing : Obligations.WriteOverflowTransmitsNothing := by
  intro bytes bp cap s hbp hover
  refine execWrite_next.2 ⟨hbp, ?_⟩
  rw [show encodeBuffer bytes bp cap s = s.overflow from if_pos hover, transmit_of_overflow rfl]
  rfl

/-- Settles O38: the WRITE is sent, `execWrite_of_sent`; the rest is read off the report. -/
theorem writeHandsTheFramesOver : Obligations.WriteHandsTheFramesOver := by
  intro bytes bp cap s hbp hne hcap
  refine ⟨_, _, execEncBuf_next.2 ⟨hbp, (encodeBuffer_of_fits hcap).symm⟩,
    execWrite_of_sent hbp hcap fun h => absurd h hne, rfl, ?_⟩
  rw [← State.nextReport_eq]
  cases s.nextReport with
  | completed => exact ⟨rfl, rfl⟩
  | failed driven => exact ⟨rfl, rfl⟩

/-- Settles O39: `execWrite_of_unsent` where the parameter says that nothing reaches the transmitter, and
`execWrite_of_sent` where it says that it does. -/
theorem emptyWriteFollowsItsParameter : Obligations.EmptyWriteFollowsItsParameter := by
  intro bp cap s hbp
  cases hsends : s.params.writeEmptySends with
  | false =>
    refine ⟨_, execWrite_of_unsent hbp hsends, rfl, fun _ => ⟨rfl, ?_⟩, nofun⟩
    obtain h | h := (s.encoded []).wroteNothing_writeResult <;> rw [h] <;> nofun
  | true =>
    refine ⟨_, execWrite_of_sent hbp (Nat.zero_le cap) fun _ => hsends, rfl, nofun, fun _ => ⟨rfl, ?_⟩⟩
    rw [← State.nextReport_eq]
    cases s.nextReport with
    | completed => exact ⟨rfl, List.append_nil s.line⟩
    | failed driven => exact ⟨rfl, rfl⟩

end Sys2Proof.Machine

/-! READ (spec/43_system_ops.md R112): what its receives decode is that of the lemmas of Laws/System.lean on
`readBatches`; here it becomes the outcome of DEC.BATCH from the same state, and the bytes decoded become those returned
and those kept. -/

namespace Sys2Proof.Machine

section Read

variable {max timeout bp room : Nat} {batch segs : List Segment} {rest : List (List Segment)} {s d t : State}
  {p : Params} {st : DecoderState}

/-- R100: a bound on the bytes that segments decode to bounds the bytes of their DEC.BATCH. -/
theorem rxBytes_lt_of_execDecBatch
    (hdec : ∀ r, decodeAll s.params bp segs s.dec = .ok r → (rxBytes r.2).length < room)
    (h : exec (.decBatch segs bp) s = .next d) : (rxBytes d.decOut).length < room := by
  obtain ⟨-, -, r, hr, rfl⟩ := execDecBatch_next.1 h
  exact hdec r hr

/-- R130: a READ that decodes a batch has a legal bit period. -/
theorem bpLegal_of_readBatches {seg : Segment} {r : DecoderState × List Item × List (List Segment)}
    (h : readBatches p bp ((seg :: segs) :: rest) room st = .ok r) : BpLegal p bp := by
  rw [readBatches] at h
  cases ha : readBatch p bp room (seg :: segs) st with
  | error e => rw [ha] at h; cases h
  | ok a => exact (readBatch_ok ha).1

/-- R112: a READ to which a batch comes decodes it. -/
theorem execRead_arrived (hcap : ∃ seg segs rest, s.captures = (seg :: segs) :: rest)
    (h : exec (.read max timeout bp) s = .next t) :
    s.contended = false ∧ BpLegal s.params bp ∧
      ∃ r, readBatches s.params bp s.captures (max - s.kept.length) s.dec = .ok r ∧
        t = (s.delivered max (rxBytes r.2.1) r.2.2).decoded r.1 r.2.1 := by
  obtain ⟨seg, segs, rest, hcap⟩ := hcap
  obtain ⟨hcont, ⟨htime, -⟩ | ⟨-, r, hr, ht⟩⟩ := execRead_next.1 h
  · rw [hcap] at htime
    obtain hnil | hhead := htime
    · cases hnil
    · cases hhead
  · exact ⟨hcont, bpLegal_of_readBatches (hcap ▸ hr), r, hr, ht⟩

/-- R112, READ_EXCESS `stopEarly`: no bytes are kept from before and those decoded all fit, so they are returned. -/
theorem execRead_stopping (hstop : s.params.readExcess = .stopEarly)
    (hcap : ∃ seg segs rest, s.captures = (seg :: segs) :: rest) (h : exec (.read max timeout bp) s = .next t) :
    s.contended = false ∧ BpLegal s.params bp ∧
      ∃ r, readBatches s.params bp s.captures max s.dec = .ok r ∧
        t = (s.delivered max (rxBytes r.2.1) r.2.2).decoded r.1 r.2.1 ∧
        t.readBytes = rxBytes r.2.1 ∧ t.held = s.held := by
  have hx : s.params.readExcess ≠ .keep := by rw [hstop]; decide
  obtain ⟨hcont, hbp, r, hr, rfl⟩ := execRead_arrived hcap h
  rw [State.kept_of_ne s hx, List.length_nil, Nat.sub_zero] at hr
  obtain ⟨-, hfit, -⟩ := readBatches_ok hr
  refine ⟨hcont, hbp, r, hr, rfl, ?_, State.delivered_held_of_ne s max _ r.2.2 hx⟩
  rw [State.decoded_readBytes, State.delivered_readBytes, State.kept_of_ne s hx, List.nil_append,
    List.take_of_length_le (hfit hstop)]

/-- R112: where decoding does not stop early, one batch of a READ is all decoded. -/
theorem readBatch_of_decodeBatch {r : DecoderState × List Item} (hx : p.readExcess ≠ .stopEarly)
    (h : decodeBatch p bp batch st = .ok r) : readBatch p bp room batch st = .ok (r.1, r.2, []) := by
  unfold readBatch
  split
  · next hstop => exact absurd hstop hx
  · rw [h]
  · rw [h]

/-- R112, READ_BATCHES `one`: the receives of the READ are the one of its batch. -/
theorem readBatches_one {r : DecoderState × List Item × List (List Segment)} (hone : p.readBatches = .one)
    (hne : batch ≠ []) :
    readBatches p bp (batch :: rest) room st = .ok r ↔
      ∃ a, readBatch p bp room batch st = .ok a ∧ r = (a.1, a.2.1, unread a.2.2 rest) := by
  obtain ⟨seg, segs, rfl⟩ := List.exists_cons_of_ne_nil hne
  rw [readBatches]
  cases readBatch p bp room (seg :: segs) st with
  | error e => exact ⟨nofun, by rintro ⟨a, h, -⟩; cases h⟩
  | ok a =>
    dsimp only
    rw [if_pos (.inl hone)]
    exact ⟨fun h => ⟨a, rfl, (Except.ok.inj h).symm⟩, by rintro ⟨_, ⟨⟩, rfl⟩; rfl⟩

/-- R112: where decoding does not stop early, that batch is all decoded and nothing goes back. -/
theorem readBatches_one_whole {r : DecoderState × List Item} (hone : p.readBatches = .one)
    (hx : p.readExcess ≠ .stopEarly) (hne : batch ≠ []) (h : decodeBatch p bp batch st = .ok r) :
    readBatches p bp (batch :: rest) room st = .ok (r.1, r.2, rest) :=
  (readBatches_one hone hne).2 ⟨_, readBatch_of_decodeBatch hx h, rfl⟩

theorem unread_eq (left : List Segment) (rest : List (List Segment)) :
    unread left rest = if left = [] then rest else left :: rest := by
  cases left <;> rfl

theorem exists_captures_eq {captures : List (List Segment)} (hcap : captures = batch :: rest) (hne : batch ≠ []) :
    ∃ seg segs rest, captures = (seg :: segs) :: rest := by
  obtain ⟨seg, segs, rfl⟩ := List.exists_cons_of_ne_nil hne
  exact ⟨seg, segs, rest, hcap⟩

/-- R43: what is to come begins with a time-out or with a batch. -/
theorem captures_cases (captures : List (List Segment)) :
    (captures = [] ∨ captures.head? = some []) ∨ ∃ seg segs rest, captures = (seg :: segs) :: rest := by
  match captures with
  | [] => exact .inl (.inl rfl)
  | [] :: _ => exact .inl (.inr rfl)
  | (seg :: segs) :: rest => exact .inr ⟨seg, segs, rest, rfl⟩

/-- R43: where a first batch is there, a READ that ends with a time-out has taken it. -/
theorem taken_ne_nil {captures left taken : List (List Segment)}
    (hcap : ∃ seg segs rest, captures = (seg :: segs) :: rest)
    (h : captures = taken ++ [] :: left ∨ captures = taken ∧ left = []) : taken ≠ [] := by
  obtain ⟨seg, segs, rest, hcap⟩ := hcap
  rintro rfl
  obtain h | ⟨h, -⟩ := h <;> rw [hcap] at h <;> cases h

end Read

/-- Settles O40: the update of a READ that times out. -/
theorem readTimeoutReturnsNothing : Obligations.ReadTimeoutReturnsNothing :=
  fun _ _ _ _ hcont htime => execRead_next.2 ⟨hcont, .inl ⟨htime, rfl⟩⟩

/-- Settles O41: a first batch is there or it times out; the receives complete on legal segments, and decode some of
them, which keeps the DecoderState legal. -/
theorem readCompletesWithinItsBound : Obligations.ReadCompletesWithinItsBound := by
  intro max timeout bp s hcont hbp hlegal hsegs
  obtain htime | hcap := captures_cases s.captures
  · refine ⟨_, execRead_next.2 ⟨hcont, .inl ⟨htime, rfl⟩⟩, ?_, Nat.zero_le max, hlegal⟩
    simp only [State.timedOut, List.append_nil]
  · obtain ⟨r, hr⟩ := readBatches_completes hbp s.captures hsegs (max - s.kept.length) s.dec hlegal
    obtain ⟨⟨used, hused⟩, -, -⟩ := readBatches_ok hr
    exact ⟨_, execRead_next.2 ⟨hcont, .inr ⟨hcap, r, hr, rfl⟩⟩, rfl, List.length_take_le _ _,
      decodeAll_legal hused hlegal⟩

/-- Settles O42: the one receive decodes the whole batch; what is returned and kept follows READ_EXCESS, and a WEDGED
channel is `execRead_wedged`. -/
theorem readOfOneBatchIsDecBatch : Obligations.ReadOfOneBatchIsDecBatch := by
  intro max timeout bp batch rest s d hone hx hcap hne h
  obtain ⟨hcont, hbp, r, hr, rfl⟩ := execDecBatch_next.1 h
  have hread : readBatches s.params bp s.captures (max - s.kept.length) s.dec = .ok (r.1, r.2, rest) := by
    rw [hcap]; exact readBatches_one_whole hone hx hne (decodeBatch_eq_ok.2 ⟨hbp, hr⟩)
  have hexec : exec (.read max timeout bp) s = .next ((s.delivered max (rxBytes r.2) rest).decoded r.1 r.2) :=
    execRead_next.2 ⟨hcont, .inr ⟨exists_captures_eq hcap hne, _, hread, rfl⟩⟩
  refine ⟨_, hexec, rfl, rfl, rfl, rfl, fun hdrop => ?_, fun hkeep hw => ?_, fun hw => ?_⟩
  · have hnk : s.params.readExcess ≠ .keep := by rw [hdrop]; decide
    rw [State.decoded_readBytes, State.delivered_readBytes, State.kept_of_ne s hnk]
    exact ⟨rfl, State.delivered_held_of_ne s max _ rest hnk⟩
  · rw [State.decoded_readBytes, State.delivered_readBytes, State.kept_of_keep s hkeep hw]
    exact ⟨rfl, State.delivered_held_of_keep s max _ rest hkeep hw⟩
  · obtain ⟨hbytes, -, hheld⟩ := execRead_wedged hw hexec
    exact ⟨hbytes, hheld⟩

/-- Settles O43: the batches of `readBatches_several`; the room it has is what the bytes kept leave of `max_bytes`. -/
theorem readOfSeveralBatchesTakesThemInOrder : Obligations.ReadOfSeveralBatchesTakesThemInOrder := by
  intro max timeout bp s t hseveral hx hcap h returnsKept kept
  obtain ⟨hcont, hbp, r, hr, rfl⟩ := execRead_arrived hcap h
  obtain ⟨taken, hne, hdec, hend, hfew⟩ := readBatches_several hseveral hx hr
  have hlen : ∀ bytes, (kept ++ bytes).length = s.kept.length + bytes.length := fun _ => List.length_append
  have htaken : taken ≠ [] := hend.elim And.left fun ⟨hout, _⟩ => taken_ne_nil hcap hout
  refine ⟨taken, s.decoded r.1 r.2.1, htaken, hne, execDecBatch_next.2 ⟨hcont, hbp, _, hdec, rfl⟩,
    rfl, rfl, rfl, rfl, rfl, ?_, ?_⟩
  · obtain ⟨-, hsplit, hroom⟩ | ⟨hout, hroom⟩ := hend
    · exact .inl ⟨hsplit, by rw [hlen, State.decoded_decOut]; omega⟩
    · have := hroom htaken
      exact .inr ⟨hout, by rw [hlen, State.decoded_decOut]; omega⟩
  · intro first d' h1 hp hne' hd'
    have := rxBytes_lt_of_execDecBatch (hfew first h1 hp hne') hd'
    rw [hlen]; omega

/-- Settles O44: what is returned and what is kept are the two parts of one sequence; a WEDGED channel returns and
decodes nothing, and keeps what it kept. -/
theorem keepingReadLosesNoByte : Obligations.KeepingReadLosesNoByte := by
  intro max timeout bp s t hkeep hcap h
  by_cases hw : s.dec.Wedged
  · obtain ⟨hbytes, hout, hheld⟩ := execRead_wedged hw h
    rw [hbytes, hout, hheld, rxBytes_nil, List.append_nil, List.nil_append]
  · obtain ⟨-, -, r, -, rfl⟩ := execRead_arrived hcap h
    rw [State.decoded_readBytes, State.delivered_readBytes, State.decoded_held, State.decoded_decOut,
      State.delivered_held_of_keep s max _ _ hkeep hw, State.kept_of_keep s hkeep hw, List.take_append_drop]

/-- Settles O45: the one receive stops early, as `readBatch_ok` says. -/
theorem stoppingReadLeavesTheRestUnread : Obligations.StoppingReadLeavesTheRestUnread := by
  intro max timeout bp batch rest s t hone hstop hcap hne h
  obtain ⟨hcont, hbp, r, hr, rfl, hbytes, hheld⟩ := execRead_stopping hstop (exists_captures_eq hcap hne) h
  rw [hcap] at hr
  obtain ⟨a, ha, rfl⟩ := (readBatches_one hone hne).1 hr
  obtain ⟨-, used, hsplit, hdec, -, hstops⟩ := readBatch_ok ha
  obtain ⟨hle, hleft, hfew⟩ := hstops hstop
  refine ⟨used, a.2.2, s.decoded a.1 a.2.1, hsplit, execDecBatch_next.2 ⟨hcont, hbp, _, hdec, rfl⟩, rfl, rfl,
    rfl, hbytes, hheld, ?_, ?_, unread_eq _ _, fun first d' hp hne' => rxBytes_lt_of_execDecBatch (hfew first hp hne')⟩
  · rw [hbytes]; exact hle
  · rw [hbytes]; exact hleft

/-- Settles O46: the receives stop early, as `readBatches_stopping` says. -/
theorem stoppingReadOfSeveralStopsAtItsBound : Obligations.StoppingReadOfSeveralStopsAtItsBound := by
  intro max timeout bp s t hseveral hstop hcap h
  obtain ⟨hcont, hbp, r, hr, rfl, hbytes, hheld⟩ := execRead_stopping hstop hcap h
  obtain ⟨taken, part, hne, hdec, hend, hfew⟩ := readBatches_stopping hseveral hstop hr
  refine ⟨taken, part, s.decoded r.1 r.2.1, hne, execDecBatch_next.2 ⟨hcont, hbp, _, hdec, rfl⟩, rfl, rfl, rfl,
    hbytes, hheld, ?_, fun first d' hp hne' => rxBytes_lt_of_execDecBatch (hfew first hp hne')⟩
  rw [hbytes]
  obtain ⟨hfull, left, rest, hpart, hsplit, hunread⟩ | ⟨hpart, hout, hroom⟩ := hend
  · exact .inl ⟨hfull, left, rest, hpart, hsplit, hunread.trans (unread_eq left rest)⟩
  · exact .inr ⟨hroom (taken_ne_nil hcap hout), hpart, hout⟩

end Sys2Proof.Machine

/-! What no operation writes (spec/43_system_ops.md R113, spec/10_state.md R15, spec/20_memory.md R30): the fields that
are on neither side of the channel. -/

namespace Sys2Proof.Machine

section Inputs

variable {i : Instr} {s t : State}

/-- R38: every operation is on one of the two sides. -/
theorem onTransmitSide_or_onReceiveSide (i : Instr) : OnTransmitSide i ∨ OnReceiveSide i := by
  cases i with
  | encByte | encBuf | quant | write => exact .inl trivial
  | decSeg | decBatch | decInit | read => exact .inr trivial

/-- R15, R113: what an operation changes is on its side, and the parameters, the ownership and the requests are on
neither. -/
theorem exec_inputs (h : exec i s = .next t) :
    t.params = s.params ∧ t.contended = s.contended ∧ t.requests = s.requests := by
  obtain hi | hi := onTransmitSide_or_onReceiveSide i
  · rw [(exec_of_onTransmitSide hi h).1]; exact ⟨rfl, rfl, rfl⟩
  · rw [(exec_of_onReceiveSide hi h).1]; exact ⟨rfl, rfl, rfl⟩

/-- R30, R134: an operation leaves the trace as it is, or puts what it decodes behind it. -/
theorem exec_trace_prefix (h : exec i s = .next t) : s.trace <+: t.trace := by
  obtain ⟨-, htrace⟩ | ⟨bp, segs, r, -, -, -, htrace⟩ | ⟨-, -, htrace⟩ := exec_decoder_cases h
  · exact htrace.symm ▸ List.prefix_rfl
  · exact htrace.symm ▸ List.prefix_append s.trace r.2
  · exact htrace.symm ▸ List.prefix_rfl

end Inputs

/-- Settles O53: `exec_inputs` and `exec_trace_prefix`; a step takes the byte form of one request off the front. -/
theorem inputsAreReadOnlyAndTheTraceOnlyGrows : Obligations.InputsAreReadOnlyAndTheTraceOnlyGrows := by
  refine ⟨fun i s t h => ?_, fun s t h => ?_⟩
  · obtain ⟨hparams, hcont, hreq⟩ := exec_inputs h
    exact ⟨hparams, hcont, hreq, exec_trace_prefix h⟩
  · obtain ⟨-, rfl⟩ | ⟨i, rest, -, hdecode, he⟩ := step_next.1 h
    · exact ⟨rfl, rfl, List.suffix_rfl, List.prefix_rfl⟩
    · obtain ⟨hparams, hcont, hreq⟩ := exec_inputs he
      refine ⟨hparams, hcont, ?_, exec_trace_prefix (s := s.consume rest) he⟩
      rw [hreq, decode_reads.1 hdecode]
      exact List.suffix_append _ _

end Sys2Proof.Machine

/-! The three conditions (spec/60_exceptions.md R120 to R126, R134): the state that each leaves, read off the one update
that ENC.BUF or DEC.SEG makes, and the two parts of a trace. -/

namespace Sys2Proof.Machine

section Trace

@[simp] theorem events_cons_byte (b : Byte) (x : List Item) : events (.byte b :: x) = events x := rfl

@[simp] theorem events_cons_event (e : Event) (x : List Item) : events (.event e :: x) = e :: events x := rfl

/-- What an optional function takes off a list, put back, is a part of the list in its order. -/
theorem map_filterMap_sublist {α β : Type} {f : α → Option β} {g : β → α} (hback : ∀ a b, f a = some b → g b = a)
    (x : List α) : ((x.filterMap f).map g).Sublist x := by
  induction x with
  | nil => exact .slnil
  | cons a x ih =>
    cases hf : f a with
    | none => rw [List.filterMap_cons_none hf]; exact ih.cons a
    | some b => rw [List.filterMap_cons_some hf, List.map_cons, hback a b hf]; exact ih.cons_cons a

theorem rxBytes_map_sublist (x : List Item) : ((rxBytes x).map Item.byte).Sublist x :=
  map_filterMap_sublist (by rintro (b | e) c ⟨⟩; rfl) x

theorem events_map_sublist (x : List Item) : ((events x).map Item.event).Sublist x :=
  map_filterMap_sublist (by rintro (b | e) c ⟨⟩; rfl) x

/-- R134: the bytes and the events of a trace are all of it. -/
theorem perm_rxBytes_append_events (x : List Item) :
    x.Perm ((rxBytes x).map Item.byte ++ (events x).map Item.event) := by
  induction x with
  | nil => exact .nil
  | cons item x ih =>
    cases item with
    | byte b => exact ih.cons _
    | event e => exact (ih.cons _).trans List.perm_middle.symm

end Trace

/-- Settles O59: one item is projected by definition; both parts are sublists of the trace, and together a permutation
of it. -/
theorem traceProjections : Obligations.TraceProjections :=
  ⟨fun _ => ⟨rfl, rfl⟩, fun _ => ⟨rfl, rfl⟩, fun x y => ⟨rxBytes_append x y, events_append x y⟩,
    fun x => ⟨rxBytes_map_sublist x, events_map_sublist x, perm_rxBytes_append_events x⟩⟩

/-- Settles O58: the codes are those that `Condition.code` names. -/
theorem conditionCodes : Obligations.ConditionCodes :=
  ⟨rfl, rfl, rfl, rfl, rfl⟩

section Overflow

variable {bytes : List Byte} {bp cap : Nat} {s : State}

/-- R121: ENC.BUF where the output does not fit. -/
theorem encodeBuffer_of_not_fits (hcap : cap < 10 * bytes.length) : encodeBuffer bytes bp cap s = s.overflow :=
  if_pos hcap

/-- R121: the result tells an overflow from a success. -/
theorem encodeBuffer_encResult_overflow_iff :
    (encodeBuffer bytes bp cap s).encResult = .overflow ↔ cap < 10 * bytes.length := by
  obtain ⟨hcap, e⟩ | ⟨hcap, e⟩ := encodeBuffer_cases bytes bp cap s <;> rw [e]
  · exact iff_of_true rfl hcap
  · exact iff_of_false nofun (Nat.not_lt.2 hcap)

/-- R121: an overflow writes only what the next ENC.BUF writes anew. -/
theorem encodeBuffer_overflow (bytes : List Byte) (bp cap : Nat) (s : State) :
    encodeBuffer bytes bp cap s.overflow = encodeBuffer bytes bp cap s := by
  unfold encodeBuffer
  split <;> rfl

theorem execEncBuf_overflow (bytes : List Byte) (bp cap : Nat) (s : State) :
    exec (.encBuf bytes bp cap) s.overflow = exec (.encBuf bytes bp cap) s := by
  show execEncBuf bytes bp cap s.overflow = execEncBuf bytes bp cap s
  rw [execEncBuf, encodeBuffer_overflow, State.overflow_params, execEncBuf]

end Overflow

/-- Settles O14: ENC.BUF makes the update `overflow` exactly where the output does not fit, and the next ENC.BUF writes
over it. -/
theorem encBufOverflowIsAllOrNothing : Obligations.EncBufOverflowIsAllOrNothing := by
  refine ⟨fun bytes bp cap s hbp hcap => ?_, fun bytes bp cap s t h => ?_, fun x y bp bp' cap cap' s t hcap h => ?_⟩
  · exact ⟨_, execEncBuf_next.2 ⟨hbp, (encodeBuffer_of_not_fits hcap).symm⟩, rfl, rfl, rfl⟩
  · obtain ⟨-, rfl⟩ := execEncBuf_next.1 h
    exact encodeBuffer_encResult_overflow_iff
  · obtain ⟨-, rfl⟩ := execEncBuf_next.1 h
    rw [encodeBuffer_of_not_fits hcap, execEncBuf_overflow]

section Diagnostics

variable {bp : Nat} {seg : Segment} {st : DecoderState}

/-- R122: a segment that skips does so at once where no frame is open (H0 of R98), or behind the byte that it completes
(H3). -/
theorem segmentStep_skipped (h : st.Legal) (hskip : .skippedNonStart ∈ events (segmentStep bp seg st).2) :
    (st.bitpos = 0 ∧ segmentStep bp seg st = (st, [.event .skippedNonStart])) ∨
      (1 ≤ st.bitpos.toNat ∧ st.bitpos.toNat ≤ 9 ∧
        ∃ b, segmentStep bp seg st = (.fresh, [.byte b, .event .skippedNonStart])) := by
  obtain ⟨-, e⟩ | ⟨-, -, -, e⟩ | ⟨h0, -, -, e⟩ | ⟨-, -, -, -, e⟩ | ⟨hopen, hpos, -, -, e⟩ | ⟨-, -, -, e⟩ | ⟨-, -, -, e⟩ :=
    segmentStep_cases bp seg st h <;> rw [e] at hskip ⊢
  · nomatch hskip
  · nomatch hskip
  · exact .inl ⟨bitpos_eq_zero.2 h0, rfl⟩
  · nomatch hskip
  · by_cases hend : st.bitpos.toNat + spanOf bp seg st = 10
    · rw [if_pos hend] at hskip; nomatch hskip
    · rw [if_neg hend]; exact .inr ⟨hopen, hpos, _, rfl⟩
  · nomatch hskip
  · simp at hskip

/-- R123: a segment that finds no stop bit is low and runs past the open frame (L2 of R98). -/
theorem segmentStep_missed (h : st.Legal) (hmiss : .missingStopBit ∈ events (segmentStep bp seg st).2) :
    st.bitpos.toNat ≤ 9 ∧ segmentStep bp seg st = (⟨10, st.acc⟩, [.event .missingStopBit]) := by
  obtain ⟨-, e⟩ | ⟨-, -, -, e⟩ | ⟨-, -, -, e⟩ | ⟨-, -, -, -, e⟩ | ⟨-, -, -, -, e⟩ | ⟨-, -, -, e⟩ | ⟨hpos, -, -, e⟩ :=
    segmentStep_cases bp seg st h <;> rw [e] at hmiss ⊢
  · nomatch hmiss
  · nomatch hmiss
  · simp at hmiss
  · nomatch hmiss
  · dsimp only at hmiss
    split at hmiss <;> simp at hmiss
  · nomatch hmiss
  · exact ⟨hpos, rfl⟩

/-- R13: nothing is recorded at or above `BITPOS`; the accumulator has no bits above 9. -/
theorem legal_acc_getLsbD_of_ge {j : Nat} (h : st.Legal) (hpos : st.bitpos.toNat ≤ 9) (hj : st.bitpos.toNat ≤ j) :
    st.acc.getLsbD j = false := by
  obtain ⟨-, -, -, hclear⟩ := h
  by_cases hten : j < 10
  · exact hclear hpos j hten hj
  · exact BitVec.getLsbD_of_ge st.acc j (Nat.not_lt.1 hten)

end Diagnostics

/-- Settles O27: the update `overflow` of ENC.BUF, and the rows of DEC.SEG that put out the event. -/
theorem conditionsLeaveTheStateOfTheTable : Obligations.ConditionsLeaveTheStateOfTheTable := by
  refine ⟨fun bytes bp cap s t h hover => ?_, fun seg bp s t h hskip => ?_, fun seg bp s t h hmiss => ?_⟩
  · obtain ⟨-, rfl⟩ := execEncBuf_next.1 h
    rw [encodeBuffer_of_not_fits (encodeBuffer_encResult_overflow_iff.1 hover)]
    exact ⟨rfl, rfl, rfl⟩
  · obtain ⟨-, -, -, hlegal, rfl⟩ := execDecSeg_next.1 h
    obtain ⟨h0, e⟩ | ⟨hopen, hpos, b, e⟩ := segmentStep_skipped hlegal hskip <;> rw [e]
    · exact ⟨rfl, by rw [h0]; decide, h0, legal_acc_zero hlegal h0, fun _ => rfl, rfl⟩
    · exact ⟨rfl, hpos, rfl, rfl, fun h0 => absurd (bitpos_eq_zero.1 h0) (by omega), rfl⟩
  · obtain ⟨-, -, -, hlegal, rfl⟩ := execDecSeg_next.1 h
    obtain ⟨hpos, e⟩ := segmentStep_missed hlegal hmiss
    have hclear : ∀ j, s.dec.bitpos.toNat ≤ j → s.dec.acc.getLsbD j = false :=
      fun _ => legal_acc_getLsbD_of_ge hlegal hpos
    rw [e]
    exact ⟨rfl, rfl, rfl, hclear 9 hpos, hclear, rfl⟩

end Sys2Proof.Machine

/-! Refusals (spec/60_exceptions.md R130): each broken precondition by its name, and that an operation runs exactly where
none is broken. -/

namespace Sys2Proof.Machine

section Refusals

variable {bytes : List Byte} {bp cap max timeout : Nat} {p : Params} {seg : Segment} {segs : List Segment}
  {st : DecoderState} {s : State} {e : Refusal}

theorem execEncBuf_refused (h : ¬ BpLegal s.params bp) : exec (.encBuf bytes bp cap) s = .refused .badConfig :=
  if_neg h

theorem execWrite_refused (h : ¬ BpLegal s.params bp) : exec (.write bytes bp cap) s = .refused .badConfig :=
  if_neg h

theorem decodeSegment_badConfig (hbp : ¬ BpLegal p bp) : decodeSegment p bp seg st = .error .badConfig :=
  if_pos hbp

theorem decodeSegment_badSegment (hbp : BpLegal p bp) (hseg : ¬ SegmentLegal p seg) :
    decodeSegment p bp seg st = .error .badSegment :=
  (if_neg (not_not.2 hbp)).trans (if_pos hseg)

theorem decodeSegment_badState (hbp : BpLegal p bp) (hseg : SegmentLegal p seg) (hst : ¬ st.Legal) :
    decodeSegment p bp seg st = .error .badState :=
  (if_neg (not_not.2 hbp)).trans ((if_neg (not_not.2 hseg)).trans (if_pos hst))

theorem decodeBatch_badConfig (hbp : ¬ BpLegal p bp) : decodeBatch p bp segs st = .error .badConfig :=
  if_pos hbp

/-- R130: a batch is refused for an illegal segment anywhere in it, the segments before it keeping the DecoderState
legal. -/
theorem decodeAll_badSegment (hbp : BpLegal p bp) (hst : st.Legal) (h : ∃ seg ∈ segs, ¬ SegmentLegal p seg) :
    decodeAll p bp segs st = .error .badSegment := by
  induction segs generalizing st with
  | nil => obtain ⟨seg, hmem, -⟩ := h; nomatch hmem
  | cons seg segs ih =>
    rw [decodeAll]
    by_cases hseg : SegmentLegal p seg
    · have hrest : ∃ seg ∈ segs, ¬ SegmentLegal p seg :=
        ((List.exists_mem_cons_iff _ _ _).1 h).resolve_left (not_not.2 hseg)
      rw [decodeSegment_ok hbp hseg hst]
      dsimp only
      rw [ih (segmentStep_legal bp seg hst) hrest]
    · rw [decodeSegment_badSegment hbp hseg]

theorem decodeBatch_badSegment (hbp : BpLegal p bp) (hst : st.Legal) (h : ∃ seg ∈ segs, ¬ SegmentLegal p seg) :
    decodeBatch p bp segs st = .error .badSegment :=
  (if_neg (not_not.2 hbp)).trans (decodeAll_badSegment hbp hst h)

/-- R130: DEC.SEG answers the refusal of its decode. -/
theorem execDecSeg_of_error (hcont : s.contended = false) (h : decodeSegment s.params bp seg s.dec = .error e) :
    exec (.decSeg seg bp) s = .refused e := by
  show execDecSeg seg bp s = _
  rw [execDecSeg, if_neg (Bool.eq_false_iff.1 hcont), h, finishDecode]

/-- R130: DEC.BATCH answers the refusal of its decode. -/
theorem execDecBatch_of_error (hcont : s.contended = false) (h : decodeBatch s.params bp segs s.dec = .error e) :
    exec (.decBatch segs bp) s = .refused e := by
  show execDecBatch segs bp s = _
  rw [execDecBatch, if_neg (Bool.eq_false_iff.1 hcont), h, finishDecode]

theorem execDecSeg_concurrent (hcont : s.contended = true) : exec (.decSeg seg bp) s = .refused .concurrent :=
  if_pos hcont

theorem execDecBatch_concurrent (hcont : s.contended = true) : exec (.decBatch segs bp) s = .refused .concurrent :=
  if_pos hcont

theorem execDecInit_concurrent (hcont : s.contended = true) : exec .decInit s = .refused .concurrent :=
  if_pos hcont

theorem execRead_concurrent (hcont : s.contended = true) : exec (.read max timeout bp) s = .refused .concurrent :=
  if_pos hcont

end Refusals

/-- Settles O48: a precondition at a time; where several are broken, an operation or the decode it makes asks for them in
the order of notes/assumptions/7.md. -/
theorem brokenPreconditionsAreRefused : Obligations.BrokenPreconditionsAreRefused := by
  refine ⟨fun s b bytes d bp cap hbp => ?_, fun s seg segs bp hcont hbp => ?_, fun s seg bp hcont hbp hseg => ?_,
    fun s segs bp hcont hbp hst hsegs => ?_, fun s seg bp hcont hbp hseg hst => ?_,
    fun s seg segs bp max timeout hcont => ?_⟩
  · exact ⟨execEncByte_refused hbp, execEncBuf_refused hbp, execQuant_refused hbp, execWrite_refused hbp⟩
  · exact ⟨execDecSeg_of_error hcont (decodeSegment_badConfig hbp),
      execDecBatch_of_error hcont (decodeBatch_badConfig hbp)⟩
  · exact execDecSeg_of_error hcont (decodeSegment_badSegment hbp hseg)
  · exact execDecBatch_of_error hcont (decodeBatch_badSegment hbp hst hsegs)
  · exact execDecSeg_of_error hcont (decodeSegment_badState hbp hseg hst)
  · exact ⟨execDecSeg_concurrent hcont, execDecBatch_concurrent hcont, execDecInit_concurrent hcont,
      execRead_concurrent hcont⟩

section Readiness

variable {i : Instr} {s t : State}

/-- R130: a batch that is decoded has legal segments and, where it has any, starts from a legal DecoderState. -/
theorem decodeAll_preconditions {p : Params} {bp : Nat} {segs : List Segment} {st : DecoderState}
    {r : DecoderState × List Item} (h : decodeAll p bp segs st = .ok r) :
    (∀ seg ∈ segs, SegmentLegal p seg) ∧ (segs = [] ∨ st.Legal) := by
  induction segs generalizing st r with
  | nil => exact ⟨nofun, .inl rfl⟩
  | cons seg segs ih =>
    obtain ⟨a, ha, b, hb, -⟩ := decodeAll_cons_eq_ok.1 h
    obtain ⟨-, hseg, hst, -⟩ := decodeSegment_eq_ok.1 ha
    obtain ⟨hsegs, -⟩ := ih hb
    exact ⟨List.forall_mem_cons.2 ⟨hseg, hsegs⟩, .inr hst⟩

/-- R152: an operation that is ready answers a next state. -/
theorem exec_completes_of_ready (h : Ready i s) : ∃ t, exec i s = .next t := by
  cases i with
  | encByte b bp => exact ⟨_, execEncByte_next.2 ⟨h, rfl⟩⟩
  | encBuf bytes bp cap => exact ⟨_, execEncBuf_next.2 ⟨h, rfl⟩⟩
  | quant d bp =>
    obtain ⟨hbp, hd⟩ := h
    exact ⟨_, execQuant_next.2 ⟨hbp, hd, rfl⟩⟩
  | decSeg seg bp =>
    obtain ⟨hcont, hbp, hseg, hst⟩ := h
    exact ⟨_, execDecSeg_next.2 ⟨hcont, hbp, hseg, hst, rfl⟩⟩
  | decBatch segs bp =>
    obtain ⟨hcont, hbp, hsegs, rfl | hst⟩ := h
    · exact ⟨_, execDecBatch_nil hcont hbp⟩
    · obtain ⟨r, hr, -⟩ := decodeAll_ok hbp segs hsegs s.dec hst
      exact ⟨_, execDecBatch_next.2 ⟨hcont, hbp, r, hr, rfl⟩⟩
  | decInit => exact ⟨_, execDecInit_next.2 ⟨h, rfl⟩⟩
  | write bytes bp cap => exact ⟨_, execWrite_next.2 ⟨h, rfl⟩⟩
  | read max timeout bp =>
    obtain ⟨hcont, hbp, hst, hsegs⟩ := h
    obtain ⟨t, ht, -⟩ := readCompletesWithinItsBound max timeout bp s hcont hbp hst hsegs
    exact ⟨t, ht⟩

/-- R130: an operation other than READ that answers a next state was ready. -/
theorem ready_of_exec (hread : ∀ max timeout bp, i ≠ .read max timeout bp) (h : exec i s = .next t) : Ready i s := by
  cases i with
  | encByte b bp => exact (execEncByte_next.1 h).1
  | encBuf bytes bp cap => exact (execEncBuf_next.1 h).1
  | quant d bp =>
    obtain ⟨hbp, hd, -⟩ := execQuant_next.1 h
    exact ⟨hbp, hd⟩
  | decSeg seg bp =>
    obtain ⟨hcont, hbp, hseg, hst, -⟩ := execDecSeg_next.1 h
    exact ⟨hcont, hbp, hseg, hst⟩
  | decBatch segs bp =>
    obtain ⟨hcont, hbp, r, hr, -⟩ := execDecBatch_next.1 h
    exact ⟨hcont, hbp, decodeAll_preconditions hr⟩
  | decInit => exact (execDecInit_next.1 h).1
  | write bytes bp cap => exact (execWrite_next.1 h).1
  | read max timeout bp => exact absurd rfl (hread max timeout bp)

end Readiness

/-- Settles O49: operation by operation, in both directions. -/
theorem operationsRunExactlyWhenReady : Obligations.OperationsRunExactlyWhenReady :=
  ⟨fun _ _ => exec_completes_of_ready, fun _ _ _ => ready_of_exec⟩

end Sys2Proof.Machine

/-! Sequences of operations (spec/70_reset_and_hazards.md R152): legal operands make an operation ready, and an
operation leaves to be captured only segments that were there, so what makes the next one ready is kept along the
sequence. -/

namespace Sys2Proof.Machine

section Sequences

variable {i : Instr} {s t : State}

/-- R130: legal operands make an operation ready, where nobody else is at work on the channel, its DecoderState is legal
and so is every segment still to come. -/
theorem ready_of_wellFormed (hwf : WellFormed s.params i = true) (hdec : s.dec.Legal) (hcont : s.contended = false)
    (hcap : ∀ batch ∈ s.captures, ∀ seg ∈ batch, SegmentLegal s.params seg) : Ready i s := by
  cases i with
  | encByte _ bp | encBuf _ bp _ | write _ bp _ => exact of_decide_eq_true (p := BpLegal s.params bp) hwf
  | quant d bp =>
    obtain ⟨hbp, hd⟩ := Bool.and_eq_true_iff.1 hwf
    exact ⟨of_decide_eq_true hbp, of_decide_eq_true hd⟩
  | decSeg seg bp =>
    obtain ⟨hbp, hseg⟩ := Bool.and_eq_true_iff.1 hwf
    exact ⟨hcont, of_decide_eq_true hbp, of_decide_eq_true hseg, hdec⟩
  | decBatch segs bp =>
    obtain ⟨hbp, hsegs⟩ := Bool.and_eq_true_iff.1 hwf
    exact ⟨hcont, of_decide_eq_true hbp, fun seg h => of_decide_eq_true (List.all_eq_true.1 hsegs seg h), .inr hdec⟩
  | decInit => exact hcont
  | read max timeout bp => exact ⟨hcont, of_decide_eq_true hwf, hdec, hcap⟩

/-- R43, R112: READ alone takes from what is to come, and leaves no segment that was not there. -/
theorem exec_captures (h : exec i s = .next t) : ∀ batch ∈ t.captures, ∀ seg ∈ batch, ∃ b ∈ s.captures, seg ∈ b := by
  have same (e : t.captures = s.captures) : ∀ batch ∈ t.captures, ∀ seg ∈ batch, ∃ b ∈ s.captures, seg ∈ b :=
    fun batch hbatch _ hseg => ⟨batch, e ▸ hbatch, hseg⟩
  obtain hi | hi := onTransmitSide_or_onReceiveSide i
  · have hcap := congrArg State.captures (exec_of_onTransmitSide hi h).1
    exact same hcap
  · cases i with
    | decSeg =>
      obtain ⟨-, -, -, -, rfl⟩ := execDecSeg_next.1 h
      exact same (State.decoded_captures ..)
    | decBatch =>
      obtain ⟨-, -, r, -, rfl⟩ := execDecBatch_next.1 h
      exact same (State.decoded_captures ..)
    | decInit =>
      obtain ⟨-, rfl⟩ := execDecInit_next.1 h
      exact same (State.initDecoder_captures ..)
    | read =>
      obtain ⟨-, ⟨-, rfl⟩ | ⟨-, r, hr, rfl⟩⟩ := execRead_next.1 h
      · exact fun batch hbatch _ hseg => ⟨batch, List.mem_of_mem_tail hbatch, hseg⟩
      · obtain ⟨-, -, hleft⟩ := readBatches_ok hr
        exact hleft
    | encByte | encBuf | quant | write => exact hi.elim

/-- R50: segments still to come that are legal stay so. -/
theorem exec_keeps_captures_legal (h : exec i s = .next t)
    (hcap : ∀ batch ∈ s.captures, ∀ seg ∈ batch, SegmentLegal s.params seg) :
    ∀ batch ∈ t.captures, ∀ seg ∈ batch, SegmentLegal t.params seg := by
  intro batch hbatch seg hseg
  obtain ⟨b, hb, hmem⟩ := exec_captures h batch hbatch seg hseg
  obtain ⟨hparams, -, -⟩ := exec_inputs h
  exact hparams ▸ hcap b hb seg hmem

end Sequences

/-- Settles O50, by induction on the sequence: its first operation is ready, so it completes, and it keeps the invariant
and all that makes the others ready. -/
theorem wellFormedSequencesRunToTheirEnd : Obligations.WellFormedSequencesRunToTheirEnd := by
  intro is s hinv hcont hcap hwf
  induction is generalizing s with
  | nil => exact ⟨s, rfl, hinv⟩
  | cons i is ih =>
    obtain ⟨hi, his⟩ := List.forall_mem_cons.1 hwf
    obtain ⟨u, hu⟩ := exec_completes_of_ready (ready_of_wellFormed hi hinv.decoder hcont hcap)
    obtain ⟨hparams, hcont', -⟩ := exec_inputs hu
    obtain ⟨t, ht, hinv'⟩ :=
      ih u (hinv.exec hu) (hcont'.trans hcont) (exec_keeps_captures_legal hu hcap) (hparams ▸ his)
    exact ⟨t, execAll_cons_eq_next.2 ⟨u, hu, ht⟩, hinv'⟩

end Sys2Proof.Machine

/-! The polarity hazard (spec/70_reset_and_hazards.md R143): the encoder's output begins high, so its first segment is
skipped, and the nine that are left cannot fill the ten slots of a frame. -/

namespace Sys2Proof.Machine

section Polarity

variable {p : Params} {bp : Nat}

/-- R92, R93: a segment of one bit period below slot 9 completes no frame, and takes one slot at most. -/
theorem segmentStep_bp_below_nine (hbp : 0 < bp) (l : Level) {st : DecoderState} (h : st.bitpos.toNat < 9) :
    rxBytes (segmentStep bp ⟨bp, l⟩ st).2 = [] ∧
      (segmentStep bp ⟨bp, l⟩ st).1.bitpos.toNat ≤ st.bitpos.toNat + 1 := by
  by_cases hidle : l = true ∧ st.bitpos = 0
  · obtain ⟨rfl, h0⟩ := hidle
    rw [segmentStep_idle h0]
    exact ⟨rfl, Nat.le_succ _⟩
  · rw [segmentStep_bp_record hbp h fun hl h0 => hidle ⟨hl, h0⟩]
    exact ⟨rfl, (bitpos_succ h.le).le⟩

/-- R95: segments of one bit period yield no byte where they are too few to reach the stop bit. -/
theorem rxBytes_decodeAll_bp_eq_nil {segs : List Segment} {st : DecoderState} {r : DecoderState × List Item}
    (hdur : ∀ seg ∈ segs, seg.duration = bp) (hfew : st.bitpos.toNat + segs.length ≤ 9)
    (h : decodeAll p bp segs st = .ok r) : rxBytes r.2 = [] := by
  induction segs generalizing st r with
  | nil => cases h; rfl
  | cons seg segs ih =>
    obtain ⟨d, l⟩ := seg
    obtain ⟨hd, hdur⟩ := List.forall_mem_cons.1 hdur
    obtain rfl : d = bp := hd
    rw [List.length_cons] at hfew
    obtain ⟨a, ha, b, hb, rfl⟩ := decodeAll_cons_eq_ok.1 h
    obtain ⟨hbp, -, -, rfl⟩ := decodeSegment_eq_ok.1 ha
    obtain ⟨hnone, hpos⟩ := segmentStep_bp_below_nine hbp.1 l (st := st) (by omega)
    rw [rxBytes_append, hnone, ih hdur (by omega) hb, List.append_nil]

/-- R70, R55: the start bit leaves the encoder high. -/
theorem flat_encodeByte_eq_cons (b : Byte) (bp : Nat) :
    flat (encodeByte b bp) = ⟨bp, true⟩ :: (List.range' 1 9).map (txSegment (frameOf b) bp) := by
  have hstart : txSegment (frameOf b) bp 0 = ⟨bp, true⟩ := by
    rw [txSegment, frameBit, frameOf_getLsbD_zero, Bool.not_false]
  rw [← hstart]
  rfl

end Polarity

/-- Settles O35: the first segment is skipped, and the nine behind it are too few for a byte. -/
theorem uninvertedFrameYieldsNoByte : Obligations.UninvertedFrameYieldsNoByte := by
  intro b bp s e t hdec he ht
  obtain ⟨-, rfl⟩ := execEncByte_next.1 he
  obtain ⟨-, -, r, hr, rfl⟩ := execDecBatch_next.1 ht
  rw [State.encoded_txSeg, flat_encodeByte_eq_cons, State.encoded_dec, hdec] at hr
  obtain ⟨first, hfirst, rest, hrest, rfl⟩ := decodeAll_cons_eq_ok.1 hr
  obtain ⟨-, -, -, rfl⟩ := decodeSegment_eq_ok.1 hfirst
  rw [segmentStep_idle rfl] at hrest ⊢
  have hdur : ∀ seg ∈ (List.range' 1 9).map (txSegment (frameOf b) bp), seg.duration = bp :=
    List.forall_mem_map.2 fun _ _ => rfl
  have hfew : DecoderState.fresh.bitpos.toNat + ((List.range' 1 9).map (txSegment (frameOf b) bp)).length ≤ 9 := by
    rw [List.length_map, List.length_range', fresh_bitpos]; decide
  exact ⟨rxBytes_decodeAll_bp_eq_nil hdur hfew hrest, rfl⟩

end Sys2Proof.Machine
